-- ==== Sys2Proof/Word.lean ====
section
/-! DEFINITION. The sizes of SV4STATE-CORE: bytes, packed words, planes, the closed set of word widths, and the four
operations. -/

namespace Sys2Proof

/-- A byte is 8 bits (R10). -/
abbrev Byte := BitVec 8

/-- A packed word is an unsigned 64-bit value (R21, R52). -/
abbrev PackedWord := BitVec 64

/-- A plane as a port carries it: 128 lines, the widest word width (R27, D8). -/
abbrev PortPlane := BitVec 128

/-- The closed set of word widths (R8, R20).  There is no other width. -/
inductive Width
  | w8 | w16 | w32 | w64 | w128
  deriving DecidableEq, Repr

/-- `bits` of R20. -/
def Width.bits : Width → Nat
  | .w8 => 8
  | .w16 => 16
  | .w32 => 32
  | .w64 => 64
  | .w128 => 128

/-- The four operations of the block (R2). -/
inductive Op
  | decode | resolve | renderBin | renderHex
  deriving DecidableEq, Repr

end Sys2Proof
end

