-- ==== Sys2Proof/Syntax.lean ====
section
/-! DEFINITION. The instructions: one constructor per row of spec/opcode_table.json (four operations at five widths).
The one field of a selector that no row fixes is the bit `alt` (R57). -/

namespace Sys2Proof

/-- The operations a selector can name (R57 to R61).  The argument is the selector's `alt` bit: the alternate mode of the
renderers, and a bit that DECODE and RESOLVE ignore (R60). -/
inductive Instr
  /-- `DECODE.W8` (R73). -/
  | decodeW8 (alt : Bool)
  /-- `DECODE.W16` (R73). -/
  | decodeW16 (alt : Bool)
  /-- `DECODE.W32` (R73). -/
  | decodeW32 (alt : Bool)
  /-- `DECODE.W64` (R73). -/
  | decodeW64 (alt : Bool)
  /-- `DECODE.W128` (R73). -/
  | decodeW128 (alt : Bool)
  /-- `RESOLVE.W8` (R67). -/
  | resolveW8 (alt : Bool)
  /-- `RESOLVE.W16` (R67). -/
  | resolveW16 (alt : Bool)
  /-- `RESOLVE.W32` (R67). -/
  | resolveW32 (alt : Bool)
  /-- `RESOLVE.W64` (R67). -/
  | resolveW64 (alt : Bool)
  /-- `RESOLVE.W128` (R67). -/
  | resolveW128 (alt : Bool)
  /-- `RENDER_BIN.W8` (R87). -/
  | renderBinW8 (alt : Bool)
  /-- `RENDER_BIN.W16` (R87). -/
  | renderBinW16 (alt : Bool)
  /-- `RENDER_BIN.W32` (R87). -/
  | renderBinW32 (alt : Bool)
  /-- `RENDER_BIN.W64` (R87). -/
  | renderBinW64 (alt : Bool)
  /-- `RENDER_BIN.W128` (R87). -/
  | renderBinW128 (alt : Bool)
  /-- `RENDER_HEX.W8` (R90). -/
  | renderHexW8 (alt : Bool)
  /-- `RENDER_HEX.W16` (R90). -/
  | renderHexW16 (alt : Bool)
  /-- `RENDER_HEX.W32` (R90). -/
  | renderHexW32 (alt : Bool)
  /-- `RENDER_HEX.W64` (R90). -/
  | renderHexW64 (alt : Bool)
  /-- `RENDER_HEX.W128` (R90). -/
  | renderHexW128 (alt : Bool)
  deriving DecidableEq, Repr

end Sys2Proof
end

