-- ==== Sys2Proof/WellFormed.lean ====
section
/-! DEFINITION. Which instruction terms are well-formed: all of them, since the only field is the `alt` bit and neither of
its values is reserved (R60, R61).  The checks that do refuse something are on the callers' side: `Sys2Proof.Machine.programWf`
(the spec's notation, R66) and `Sys2Proof.Machine.InPorts.wf` (the port form of a request, R9 and R27). -/

namespace Sys2Proof

/-- Every instruction term is well-formed: "There are no hint encodings, no no-op encoding" and no reserved value of `alt`
(R60, R61). -/
def Instr.wellFormed : Instr → Bool
  | .decodeW8 _ => true
  | .decodeW16 _ => true
  | .decodeW32 _ => true
  | .decodeW64 _ => true
  | .decodeW128 _ => true
  | .resolveW8 _ => true
  | .resolveW16 _ => true
  | .resolveW32 _ => true
  | .resolveW64 _ => true
  | .resolveW128 _ => true
  | .renderBinW8 _ => true
  | .renderBinW16 _ => true
  | .renderBinW32 _ => true
  | .renderBinW64 _ => true
  | .renderBinW128 _ => true
  | .renderHexW8 _ => true
  | .renderHexW16 _ => true
  | .renderHexW32 _ => true
  | .renderHexW64 _ => true
  | .renderHexW128 _ => true

end Sys2Proof
end

