-- ==== Sys2Proof/Decode.lean ====
section
/-! DEFINITION. The operation selector (R57 to R62): its fields, its decoder, its encoder, and the decoder by match and mask
over the rows of spec/opcode_table.json. -/

namespace Sys2Proof

/-- `op`, bits `[5:4]` of a selector (R57). -/
def opField (sel : BitVec 6) : BitVec 2 := sel.extractLsb' 4 2

/-- `alt`, bit `[3]` of a selector (R57). -/
def altField (sel : BitVec 6) : Bool := sel.getLsbD 3

/-- `wsel`, bits `[2:0]` of a selector (R57). -/
def wselField (sel : BitVec 6) : BitVec 3 := sel.extractLsb' 0 3

/-- The operation codes (R58); every value of `op` names an operation. -/
def opOfCode (c : BitVec 2) : Op :=
  if c = 0b00#2 then .decode
  else if c = 0b01#2 then .resolve
  else if c = 0b10#2 then .renderBin
  else .renderHex

/-- The width codes (R59); `101`, `110` and `111` name no width (R61). -/
def widthOfCode (c : BitVec 3) : Option Width :=
  if c = 0b000#3 then some .w8
  else if c = 0b001#3 then some .w16
  else if c = 0b010#3 then some .w32
  else if c = 0b011#3 then some .w64
  else if c = 0b100#3 then some .w128
  else none

/-- The code of an operation (R58). -/
def opCode : Op → BitVec 2
  | .decode => 0b00#2
  | .resolve => 0b01#2
  | .renderBin => 0b10#2
  | .renderHex => 0b11#2

/-- The code of a width (R59). -/
def widthCode : Width → BitVec 3
  | .w8 => 0b000#3
  | .w16 => 0b001#3
  | .w32 => 0b010#3
  | .w64 => 0b011#3
  | .w128 => 0b100#3

/-- The instruction for an operation, a width and an `alt` bit. -/
def instrOf : Op → Width → Bool → Instr
  | .decode, .w8, alt => .decodeW8 alt
  | .decode, .w16, alt => .decodeW16 alt
  | .decode, .w32, alt => .decodeW32 alt
  | .decode, .w64, alt => .decodeW64 alt
  | .decode, .w128, alt => .decodeW128 alt
  | .resolve, .w8, alt => .resolveW8 alt
  | .resolve, .w16, alt => .resolveW16 alt
  | .resolve, .w32, alt => .resolveW32 alt
  | .resolve, .w64, alt => .resolveW64 alt
  | .resolve, .w128, alt => .resolveW128 alt
  | .renderBin, .w8, alt => .renderBinW8 alt
  | .renderBin, .w16, alt => .renderBinW16 alt
  | .renderBin, .w32, alt => .renderBinW32 alt
  | .renderBin, .w64, alt => .renderBinW64 alt
  | .renderBin, .w128, alt => .renderBinW128 alt
  | .renderHex, .w8, alt => .renderHexW8 alt
  | .renderHex, .w16, alt => .renderHexW16 alt
  | .renderHex, .w32, alt => .renderHexW32 alt
  | .renderHex, .w64, alt => .renderHexW64 alt
  | .renderHex, .w128, alt => .renderHexW128 alt

/-- The operation of an instruction. -/
def Instr.op : Instr → Op
  | .decodeW8 _ => .decode
  | .decodeW16 _ => .decode
  | .decodeW32 _ => .decode
  | .decodeW64 _ => .decode
  | .decodeW128 _ => .decode
  | .resolveW8 _ => .resolve
  | .resolveW16 _ => .resolve
  | .resolveW32 _ => .resolve
  | .resolveW64 _ => .resolve
  | .resolveW128 _ => .resolve
  | .renderBinW8 _ => .renderBin
  | .renderBinW16 _ => .renderBin
  | .renderBinW32 _ => .renderBin
  | .renderBinW64 _ => .renderBin
  | .renderBinW128 _ => .renderBin
  | .renderHexW8 _ => .renderHex
  | .renderHexW16 _ => .renderHex
  | .renderHexW32 _ => .renderHex
  | .renderHexW64 _ => .renderHex
  | .renderHexW128 _ => .renderHex

/-- The word width of an instruction. -/
def Instr.width : Instr → Width
  | .decodeW8 _ => .w8
  | .decodeW16 _ => .w16
  | .decodeW32 _ => .w32
  | .decodeW64 _ => .w64
  | .decodeW128 _ => .w128
  | .resolveW8 _ => .w8
  | .resolveW16 _ => .w16
  | .resolveW32 _ => .w32
  | .resolveW64 _ => .w64
  | .resolveW128 _ => .w128
  | .renderBinW8 _ => .w8
  | .renderBinW16 _ => .w16
  | .renderBinW32 _ => .w32
  | .renderBinW64 _ => .w64
  | .renderBinW128 _ => .w128
  | .renderHexW8 _ => .w8
  | .renderHexW16 _ => .w16
  | .renderHexW32 _ => .w32
  | .renderHexW64 _ => .w64
  | .renderHexW128 _ => .w128

/-- The `alt` bit of an instruction. -/
def Instr.alt : Instr → Bool
  | .decodeW8 alt => alt
  | .decodeW16 alt => alt
  | .decodeW32 alt => alt
  | .decodeW64 alt => alt
  | .decodeW128 alt => alt
  | .resolveW8 alt => alt
  | .resolveW16 alt => alt
  | .resolveW32 alt => alt
  | .resolveW64 alt => alt
  | .resolveW128 alt => alt
  | .renderBinW8 alt => alt
  | .renderBinW16 alt => alt
  | .renderBinW32 alt => alt
  | .renderBinW64 alt => alt
  | .renderBinW128 alt => alt
  | .renderHexW8 alt => alt
  | .renderHexW16 alt => alt
  | .renderHexW32 alt => alt
  | .renderHexW64 alt => alt
  | .renderHexW128 alt => alt

/-- What a selector decodes to: an instruction, or the configuration error with the `wsel` that names no width. -/
inductive Decoded
  | instr (i : Instr)
  | unsupportedWidth (wsel : BitVec 3)
  deriving DecidableEq, Repr

/-- `decode_sel` of R62, total over all 64 selectors: the width first, then the operation. -/
def decodeSel (sel : BitVec 6) : Decoded :=
  match widthOfCode (wselField sel) with
  | none => .unsupportedWidth (wselField sel)
  | some w => .instr (instrOf (opOfCode (opField sel)) w (altField sel))

/-- The selector of an instruction, assembled from its fields (R57). -/
def encode (i : Instr) : BitVec 6 :=
  opCode i.op ++ BitVec.ofBool i.alt ++ widthCode i.width

/-- One row of spec/opcode_table.json: the 6-bit pattern, the bits it fixes, and the operation and width it names. -/
structure OpcodeRow where
  pattern : BitVec 6
  mask : BitVec 6
  op : Op
  width : Width
  deriving DecidableEq, Repr

/-- The rows of spec/opcode_table.json, in its order. -/
def opcodeRows : List OpcodeRow :=
  [⟨0x00#6, 0x37#6, .decode, .w8⟩,
   ⟨0x01#6, 0x37#6, .decode, .w16⟩,
   ⟨0x02#6, 0x37#6, .decode, .w32⟩,
   ⟨0x03#6, 0x37#6, .decode, .w64⟩,
   ⟨0x04#6, 0x37#6, .decode, .w128⟩] ++
  [⟨0x10#6, 0x37#6, .resolve, .w8⟩,
   ⟨0x11#6, 0x37#6, .resolve, .w16⟩,
   ⟨0x12#6, 0x37#6, .resolve, .w32⟩,
   ⟨0x13#6, 0x37#6, .resolve, .w64⟩,
   ⟨0x14#6, 0x37#6, .resolve, .w128⟩] ++
  [⟨0x20#6, 0x37#6, .renderBin, .w8⟩,
   ⟨0x21#6, 0x37#6, .renderBin, .w16⟩,
   ⟨0x22#6, 0x37#6, .renderBin, .w32⟩,
   ⟨0x23#6, 0x37#6, .renderBin, .w64⟩,
   ⟨0x24#6, 0x37#6, .renderBin, .w128⟩] ++
  [⟨0x30#6, 0x37#6, .renderHex, .w8⟩,
   ⟨0x31#6, 0x37#6, .renderHex, .w16⟩,
   ⟨0x32#6, 0x37#6, .renderHex, .w32⟩,
   ⟨0x33#6, 0x37#6, .renderHex, .w64⟩,
   ⟨0x34#6, 0x37#6, .renderHex, .w128⟩]

/-- The decoder "written from `opcode_table.json` alone" (R62): the first row whose masked bits match, and the configuration
error where none does. -/
def decodeByTable (sel : BitVec 6) : Decoded :=
  match opcodeRows.find? (fun r => sel &&& r.mask == r.pattern) with
  | none => .unsupportedWidth (wselField sel)
  | some r => .instr (instrOf r.op r.width (altField sel))

/-- The instruction this decoder reads from a selector given as a number, bit 0 the least significant bit of `sel`.  A
selector has 6 bits and one length (R57), so a number with a bit above bit 5 is no selector and is refused (DESIGN CHOICE, log entry 8). -/
def decodeTableWord (_nbits w : Nat) : Option Instr :=
  if w < 64 then
    match decodeSel (BitVec.ofNat 6 w) with
    | .instr i => some i
    | .unsupportedWidth _ => none
  else none

end Sys2Proof
end

