-- ==== Sys2Proof/Machine/State.lean ====
section
/-! DEFINITION. The state of the model: the inputs of the present request (R25) and the outcome of the last operation (R26).
The block itself keeps nothing from one operation to the next (R17); these are "the operands and outcome of one operation"
(DEDUCED, log entries 1 and 22). -/

namespace Sys2Proof.Machine

/-- The logical state of one bit position (R19): `0`, `1`, `X` unknown, `Z` high-impedance. -/
inductive State4
  | zero | one | x | z
  deriving DecidableEq, Repr

/-- A Four-State Word of width `w` (R18, R54): three planes; every triple is valid. -/
structure FourStateWord (w : Nat) where
  value : BitVec w
  highz : BitVec w
  unknown : BitVec w
  deriving DecidableEq, Repr

/-- The result of an operation that ends in `Ok` (R26). -/
inductive Result
  /-- DECODE: the words of the selected width, group 0 first. -/
  | decoded (w : Width) (words : List (FourStateWord w.bits))
  /-- RESOLVE: one state per position, position 0 first. -/
  | states (ss : List State4)
  /-- RENDER_BIN and RENDER_HEX: the string, its leftmost character first. -/
  | text (cs : List Char)
  deriving DecidableEq, Repr

/-- The outcome of an operation (R26): exactly one of `Ok(result)` and `Fault(UnsupportedWidth, wsel)`. -/
inductive OpOutcome
  | ok (r : Result)
  | unsupportedWidth (wsel : BitVec 3)
  deriving DecidableEq, Repr

/-- The faults of a caller's SEQUENCE of operations.  No operation and no `step` answers one: a single operation that meets an
unsupported width ends with `OpOutcome.unsupportedWidth`, and the block goes on (R107, R108). -/
inductive Fault
  /-- Raised by `sequenceEnd` (and so by `runRequests` and `runProgram`) alone, for a sequence in which some operation met an
  unsupported width: "a model of a caller's sequence of operations keeps a fault it meets as a fault of that sequence" (R108,
  D10).  Safe: it errs toward unprovable (D10). -/
  | unsupportedWidth (wsel : BitVec 3)
  deriving DecidableEq, Repr

/-- The refusals. -/
inductive Refusal
  /-- Raised by an arm of `exec` whose instruction has no meaning yet; no arm raises it.  Safe. -/
  | notModelled (mnemonic : String)
  /-- Raised by `runProgram` alone, for a line whose operand names an element that no earlier DECODE result of the program
  has, or a result that is not of a DECODE, where no earlier line of the program met a fault: such a line is no request
  (R66; log entry 17).  Safe: a program that passes `programWf` never
  meets it. -/
  | noSuchElement (name : String) (index : Nat)
  deriving DecidableEq, Repr

/-- The state of the model, one home for each input port of R27 and for the outcome. -/
structure State where
  /-- `sel`, the operation selector (R25, R57). -/
  sel : BitVec 6
  /-- `pk`, the packed vector (R21); its length is `N`. -/
  pk : List PackedWord
  /-- `opv`, the value plane of the operand word; only bits `[W-1:0]` are read (R27). -/
  opv : PortPlane
  /-- `opz`, the highz plane of the operand word; only bits `[W-1:0]` are read (R27). -/
  opz : PortPlane
  /-- `opx`, the unknown plane of the operand word; only bits `[W-1:0]` are read (R27). -/
  opx : PortPlane
  /-- The outcome of the last operation performed, as the caller took it (R26, R28).  The output ports do not show it: they
  are a function of the present inputs (R117; `State.ports`, log entry 22). -/
  outcome : OpOutcome
  deriving DecidableEq, Repr

/-- The state before any operation.  The block has no reset and no reset value (R30, R116), so every field is a DESIGN
CHOICE (log entries 2 and 3): the inputs are all zero, the vector empty, and the outcome is the one these inputs give, since
the outputs of a combinational block are a function of its present inputs (R117).  No output port reads it. -/
def State.reset : State where
  sel := 0#6
  pk := []
  opv := 0#128
  opz := 0#128
  opx := 0#128
  outcome := .ok (.decoded .w8 [])

end Sys2Proof.Machine
end

