-- ==== Sys2Proof/Machine/Ops.lean ====
section
/-! DEFINITION. The named operations over memory and state: the byte-addressed view of the packed vector (R36, R41), the
memory primitives (R12), ending an operation with a result (R13, R26) and with the configuration error (R104, R107). -/

namespace Sys2Proof.Machine

/-- A byte-addressed input space: its bytes that are not zero, by rising address. -/
abbrev Memory := List Host.Cell

/-- What an address with no entry reads as: zero.  A byte at or past the end of a stream is absent and "treated as zero"
(R41). -/
def absentByte : Byte := 0#8

/-- The byte at an address (R12, R41). -/
def readByte : Memory → Nat → Byte
  | [], _ => absentByte
  | (k, b) :: rest, a => if k = a then b else readByte rest a

/-- The canonical form of a byte-addressed space: addresses strictly rising, no entry equal to what an unlisted address
reads as. -/
abbrev Memory.wf (m : Memory) : Prop :=
  m.Pairwise (fun c d => c.1 < d.1) ∧ ∀ c ∈ m, c.2 ≠ absentByte

/-- The space that holds a sequence of bytes from address `base` on. -/
def layBytes : Nat → List Byte → Memory
  | _, [] => []
  | base, b :: bs =>
    if b = absentByte then layBytes (base + 1) bs else (base, b) :: layBytes (base + 1) bs

/-- The a-plane of a packed word, bits `[31:0]` (R52). -/
def aPlane (w : PackedWord) : BitVec 32 := w.extractLsb' 0 32

/-- The b-plane of a packed word, bits `[63:32]` (R52). -/
def bPlane (w : PackedWord) : BitVec 32 := w.extractLsb' 32 32

/-- The 4 bytes of a plane, "little-endian (least-significant byte first)" (R36, R38). -/
def planeBytes (p : BitVec 32) : List Byte :=
  [p.extractLsb' 0 8, p.extractLsb' 8 8, p.extractLsb' 16 8, p.extractLsb' 24 8]

/-- The bytes of stream A: those of every a-plane, "for every input word in ascending order" (R36). -/
def streamBytesA (pk : List PackedWord) : List Byte := pk.flatMap (fun w => planeBytes (aPlane w))

/-- The bytes of stream B: those of every b-plane (R36). -/
def streamBytesB (pk : List PackedWord) : List Byte := pk.flatMap (fun w => planeBytes (bPlane w))

/-- Stream A as a byte-addressed space (R36). -/
def streamA (pk : List PackedWord) : Memory := layBytes 0 (streamBytesA pk)

/-- Stream B as a byte-addressed space (R36). -/
def streamB (pk : List PackedWord) : Memory := layBytes 0 (streamBytesB pk)

/-- `MemRead(addr, n)` of R12: the `n`-byte little-endian unsigned integer whose byte `k` is the byte at `addr + k`. -/
def memRead (m : Memory) (addr : Nat) : (n : Nat) → BitVec (8 * n)
  | 0 => 0#0
  | n + 1 => (readByte m (addr + n) ++ memRead m addr n).setWidth (8 * (n + 1))

/-- `ceil(a / b)` for naturals, as R11 defines it. -/
def ceilDiv (a b : Nat) : Nat := (a + b - 1) / b

/-- Bit `q` of the a-planes of a packed vector: `a` of logical bit `q` (R39, R53); 0 past the end (R41, R77). -/
def aBit (pk : List PackedWord) (q : Nat) : Bool := (pk.getD (q / 32) 0#64).getLsbD (q % 32)

/-- Bit `q` of the b-planes of a packed vector: `b` of logical bit `q` (R39, R53); 0 past the end (R41, R77). -/
def bBit (pk : List PackedWord) (q : Nat) : Bool := (pk.getD (q / 32) 0#64).getLsbD (32 + q % 32)

/-- The outcome of the last operation is replaced; nothing else of the state changes (R17). -/
def State.withOutcome (s : State) (o : OpOutcome) : State := { s with outcome := o }

/-- An operation ends with its result (R13, R26): the outcome becomes `Ok(r)`. -/
def finish (s : State) (r : Result) : Host.Outcome State Fault Refusal := .next (s.withOutcome (.ok r))

/-- An operation raises `UnsupportedWidth(wsel)` (R104, R107).  Nothing is saved, no control is transferred, no operand is
read; the outcome becomes `Fault(UnsupportedWidth, wsel)`, and the block goes on to the next operation (R108: not sticky,
and there is no return-from-trap operation).  That this is a next state and no stop is DEDUCED (log entry 4). -/
def takeUnsupportedWidth (wsel : BitVec 3) (s : State) : Host.Outcome State Fault Refusal :=
  .next (s.withOutcome (.unsupportedWidth wsel))

end Sys2Proof.Machine
end

