-- ==== Sys2Proof/Machine/Operands.lean ====
section
/-! DEFINITION. The operand forms (R55): the groups of the packed vector that DECODE reads, and the Four-State Word that
RESOLVE and the renderers read.  The third form, the alternate flag, is the instruction's own `alt` bit.  No operand is
sign-extended, scaled or shifted. -/

namespace Sys2Proof.Machine

/-- `A_i`: group `i` of stream A at width `W`, a little-endian `W`-bit integer (R40). -/
def groupA (W : Nat) (pk : List PackedWord) (i : Nat) : BitVec W :=
  (memRead (streamA pk) (i * (W / 8)) (W / 8)).setWidth W

/-- `B_i`: group `i` of stream B at width `W` (R40). -/
def groupB (W : Nat) (pk : List PackedWord) (i : Nat) : BitVec W :=
  (memRead (streamB pk) (i * (W / 8)) (W / 8)).setWidth W

/-- `opw` at width `W`: bits `[W-1:0]` of the three operand planes, unmodified (R27, R55). -/
def operandWord (W : Nat) (s : State) : FourStateWord W where
  value := s.opv.setWidth W
  highz := s.opz.setWidth W
  unknown := s.opx.setWidth W

end Sys2Proof.Machine
end

