-- ==== Sys2Proof/Machine/PackedDecode.lean ====
section
/-! DEFINITION. DECODE, the packed bitplane decoder (R73 to R78). -/

namespace Sys2Proof.Machine

/-- `M`, the number of words a DECODE at width `W` returns for `N` packed words (R74). -/
def decodeCount (W N : Nat) : Nat := ceilDiv (32 * N) W

/-- The combination of the two operands of a group (R75). -/
def combine {W : Nat} (a b : BitVec W) : FourStateWord W where
  value := a &&& ~~~b
  highz := b &&& ~~~a
  unknown := a &&& b

/-- Word `i` of a DECODE at width `W` (R75, R76). -/
def decodeWord (W : Nat) (pk : List PackedWord) (i : Nat) : FourStateWord W :=
  combine (groupA W pk i) (groupB W pk i)

/-- The words of a DECODE at width `W`, in ascending group order (R73, R76). -/
def decodeWords (W : Nat) (pk : List PackedWord) : List (FourStateWord W) :=
  (List.range (decodeCount W pk.length)).map (decodeWord W pk)

/-- DECODE at a width (R73); it ignores the `alt` bit (R60). -/
def performDecode (w : Width) (s : State) : Host.Outcome State Fault Refusal :=
  finish s (.decoded w (decodeWords w.bits s.pk))

/-- `DECODE.W8` (R73). -/
def execDecodeW8 (_alt : Bool) (s : State) : Host.Outcome State Fault Refusal :=
  performDecode .w8 s

/-- `DECODE.W16` (R73). -/
def execDecodeW16 (_alt : Bool) (s : State) : Host.Outcome State Fault Refusal :=
  performDecode .w16 s

/-- `DECODE.W32` (R73). -/
def execDecodeW32 (_alt : Bool) (s : State) : Host.Outcome State Fault Refusal :=
  performDecode .w32 s

/-- `DECODE.W64` (R73). -/
def execDecodeW64 (_alt : Bool) (s : State) : Host.Outcome State Fault Refusal :=
  performDecode .w64 s

/-- `DECODE.W128` (R73). -/
def execDecodeW128 (_alt : Bool) (s : State) : Host.Outcome State Fault Refusal :=
  performDecode .w128 s

end Sys2Proof.Machine
end

