-- ==== Sys2Proof/Machine/RenderBin.lean ====
section
/-! DEFINITION. RENDER_BIN, the binary renderer (R87 to R89). -/

namespace Sys2Proof.Machine

/-- `bin_char` (R88): lower-case letters only (90_conflicts.md C1, C2). -/
def binChar (v z x : Bool) : Char :=
  if z then 'z'
  else if x then 'x'
  else if v then '1'
  else '0'

/-- The binary character of position `p` of a word (R88). -/
def FourStateWord.binCharAt {W : Nat} (f : FourStateWord W) (p : Nat) : Char :=
  binChar (f.value.getLsbD p) (f.highz.getLsbD p) (f.unknown.getLsbD p)

/-- The digit characters, most significant position first (R89). -/
def binDigits {W : Nat} (f : FourStateWord W) : List Char :=
  (List.range W).reverse.map f.binCharAt

/-- The string of the binary renderer (R87): `0b` in alternate mode, then the digits. -/
def renderBin {W : Nat} (alt : Bool) (f : FourStateWord W) : List Char :=
  (if alt then ['0', 'b'] else []) ++ binDigits f

/-- RENDER_BIN at a width (R87). -/
def performRenderBin (w : Width) (alt : Bool) (s : State) : Host.Outcome State Fault Refusal :=
  finish s (.text (renderBin alt (operandWord w.bits s)))

/-- `RENDER_BIN.W8` (R87). -/
def execRenderBinW8 (alt : Bool) (s : State) : Host.Outcome State Fault Refusal :=
  performRenderBin .w8 alt s

/-- `RENDER_BIN.W16` (R87). -/
def execRenderBinW16 (alt : Bool) (s : State) : Host.Outcome State Fault Refusal :=
  performRenderBin .w16 alt s

/-- `RENDER_BIN.W32` (R87). -/
def execRenderBinW32 (alt : Bool) (s : State) : Host.Outcome State Fault Refusal :=
  performRenderBin .w32 alt s

/-- `RENDER_BIN.W64` (R87). -/
def execRenderBinW64 (alt : Bool) (s : State) : Host.Outcome State Fault Refusal :=
  performRenderBin .w64 alt s

/-- `RENDER_BIN.W128` (R87). -/
def execRenderBinW128 (alt : Bool) (s : State) : Host.Outcome State Fault Refusal :=
  performRenderBin .w128 alt s

end Sys2Proof.Machine
end

