-- ==== Sys2Proof/Machine/RenderHex.lean ====
section
/-! DEFINITION. RENDER_HEX, the hexadecimal renderer (R90 to R95). -/

namespace Sys2Proof.Machine

/-- `hex_digit` (R92): the lower-case hexadecimal digit of a 4-bit value. -/
def hexDigit (vs : BitVec 4) : Char :=
  match vs.toNat with
  | 0 => '0'
  | 1 => '1'
  | 2 => '2'
  | 3 => '3'
  | 4 => '4'
  | 5 => '5'
  | 6 => '6'
  | 7 => '7'
  | 8 => '8'
  | 9 => '9'
  | 10 => 'a'
  | 11 => 'b'
  | 12 => 'c'
  | 13 => 'd'
  | 14 => 'e'
  | _ => 'f'

/-- `hex_char` (R91): Z over X over the digit, lower case for a whole nibble and upper case for a partial one (R95). -/
def hexChar (vs zs xs : BitVec 4) : Char :=
  if zs = 0xF#4 then 'z'
  else if zs ≠ 0#4 then 'Z'
  else if xs = 0xF#4 then 'x'
  else if xs ≠ 0#4 then 'X'
  else hexDigit vs

/-- The slice of nibble `k` of a plane: bits `[4k+3:4k]` (R93). -/
def nibble {W : Nat} (plane : BitVec W) (k : Nat) : BitVec 4 := plane.extractLsb' (4 * k) 4

/-- The hexadecimal character of nibble `k` of a word (R91, R93). -/
def FourStateWord.hexCharAt {W : Nat} (f : FourStateWord W) (k : Nat) : Char :=
  hexChar (nibble f.value k) (nibble f.highz k) (nibble f.unknown k)

/-- The digit characters, most significant nibble first (R94). -/
def hexDigits {W : Nat} (f : FourStateWord W) : List Char :=
  (List.range (W / 4)).reverse.map f.hexCharAt

/-- The string of the hexadecimal renderer (R90): `0x` in alternate mode, then the digits. -/
def renderHex {W : Nat} (alt : Bool) (f : FourStateWord W) : List Char :=
  (if alt then ['0', 'x'] else []) ++ hexDigits f

/-- RENDER_HEX at a width (R90). -/
def performRenderHex (w : Width) (alt : Bool) (s : State) : Host.Outcome State Fault Refusal :=
  finish s (.text (renderHex alt (operandWord w.bits s)))

/-- `RENDER_HEX.W8` (R90). -/
def execRenderHexW8 (alt : Bool) (s : State) : Host.Outcome State Fault Refusal :=
  performRenderHex .w8 alt s

/-- `RENDER_HEX.W16` (R90). -/
def execRenderHexW16 (alt : Bool) (s : State) : Host.Outcome State Fault Refusal :=
  performRenderHex .w16 alt s

/-- `RENDER_HEX.W32` (R90). -/
def execRenderHexW32 (alt : Bool) (s : State) : Host.Outcome State Fault Refusal :=
  performRenderHex .w32 alt s

/-- `RENDER_HEX.W64` (R90). -/
def execRenderHexW64 (alt : Bool) (s : State) : Host.Outcome State Fault Refusal :=
  performRenderHex .w64 alt s

/-- `RENDER_HEX.W128` (R90). -/
def execRenderHexW128 (alt : Bool) (s : State) : Host.Outcome State Fault Refusal :=
  performRenderHex .w128 alt s

end Sys2Proof.Machine
end

