-- ==== Sys2Proof/Machine/Flags.lean ====
section
/-! DEFINITION. The per-position flags.  The block has no condition codes and no status flags; "the only flag-like state" is
the highz and unknown planes of a Four-State Word (R22), and this file is how they are read: the bit-priority resolution of
one position (R68) and its plane form (R72). -/

namespace Sys2Proof.Machine

/-- `resolve_bit` (R68): Z overrides X overrides V, in this order. -/
def resolveBit (v z x : Bool) : State4 :=
  if z then .z
  else if x then .x
  else if v then .one
  else .zero

/-- The state of position `p` of a word (R68, R70). -/
def FourStateWord.stateAt {W : Nat} (f : FourStateWord W) (p : Nat) : State4 :=
  resolveBit (f.value.getLsbD p) (f.highz.getLsbD p) (f.unknown.getLsbD p)

/-- The pair encoding of a logical bit (R51): (0,0) is 0, (1,0) is 1, (0,1) is Z, (1,1) is X. -/
def pairState (a b : Bool) : State4 :=
  match a, b with
  | false, false => .zero
  | true, false => .one
  | false, true => .z
  | true, true => .x

/-- The 2-bit code of a state on a port, the pair of R51 with `a` in bit 0 and `b` in bit 1 (R63). -/
def stateCode : State4 → BitVec 2
  | .zero => 0b00#2
  | .one => 0b01#2
  | .z => 0b10#2
  | .x => 0b11#2

/-- `isZ`: the mask of the positions in state Z (R72). -/
def FourStateWord.isZ {W : Nat} (f : FourStateWord W) : BitVec W := f.highz

/-- `isX`: the mask of the positions in state X (R72). -/
def FourStateWord.isX {W : Nat} (f : FourStateWord W) : BitVec W := f.unknown &&& ~~~f.highz

/-- `is1`: the mask of the positions in state 1 (R72). -/
def FourStateWord.is1 {W : Nat} (f : FourStateWord W) : BitVec W := f.value &&& ~~~f.highz &&& ~~~f.unknown

/-- `is0`: the mask of the positions in state 0 (R72). -/
def FourStateWord.is0 {W : Nat} (f : FourStateWord W) : BitVec W :=
  ~~~f.value &&& ~~~f.highz &&& ~~~f.unknown

end Sys2Proof.Machine
end

