-- ==== Sys2Proof/Machine/Resolve.lean ====
section
/-! DEFINITION. RESOLVE, the bit-priority resolver (R67). -/

namespace Sys2Proof.Machine

/-- The states of a word, position 0 first (R67). -/
def resolveWord {W : Nat} (f : FourStateWord W) : List State4 :=
  (List.range W).map f.stateAt

/-- RESOLVE at a width (R67); it ignores the `alt` bit (R60). -/
def performResolve (w : Width) (s : State) : Host.Outcome State Fault Refusal :=
  finish s (.states (resolveWord (operandWord w.bits s)))

/-- `RESOLVE.W8` (R67). -/
def execResolveW8 (_alt : Bool) (s : State) : Host.Outcome State Fault Refusal :=
  performResolve .w8 s

/-- `RESOLVE.W16` (R67). -/
def execResolveW16 (_alt : Bool) (s : State) : Host.Outcome State Fault Refusal :=
  performResolve .w16 s

/-- `RESOLVE.W32` (R67). -/
def execResolveW32 (_alt : Bool) (s : State) : Host.Outcome State Fault Refusal :=
  performResolve .w32 s

/-- `RESOLVE.W64` (R67). -/
def execResolveW64 (_alt : Bool) (s : State) : Host.Outcome State Fault Refusal :=
  performResolve .w64 s

/-- `RESOLVE.W128` (R67). -/
def execResolveW128 (_alt : Bool) (s : State) : Host.Outcome State Fault Refusal :=
  performResolve .w128 s

end Sys2Proof.Machine
end

