-- ==== Sys2Proof/Machine/Dispatch.lean ====
section
/-! DEFINITION. The dispatch: one arm per instruction, each one call of its meaning. -/

namespace Sys2Proof.Machine

def exec (i : Instr) (s : State) : Host.Outcome State Fault Refusal :=
  match i with
  | .decodeW8 alt => Sys2Proof.Machine.execDecodeW8 alt s
  | .decodeW16 alt => Sys2Proof.Machine.execDecodeW16 alt s
  | .decodeW32 alt => Sys2Proof.Machine.execDecodeW32 alt s
  | .decodeW64 alt => Sys2Proof.Machine.execDecodeW64 alt s
  | .decodeW128 alt => Sys2Proof.Machine.execDecodeW128 alt s
  | .resolveW8 alt => Sys2Proof.Machine.execResolveW8 alt s
  | .resolveW16 alt => Sys2Proof.Machine.execResolveW16 alt s
  | .resolveW32 alt => Sys2Proof.Machine.execResolveW32 alt s
  | .resolveW64 alt => Sys2Proof.Machine.execResolveW64 alt s
  | .resolveW128 alt => Sys2Proof.Machine.execResolveW128 alt s
  | .renderBinW8 alt => Sys2Proof.Machine.execRenderBinW8 alt s
  | .renderBinW16 alt => Sys2Proof.Machine.execRenderBinW16 alt s
  | .renderBinW32 alt => Sys2Proof.Machine.execRenderBinW32 alt s
  | .renderBinW64 alt => Sys2Proof.Machine.execRenderBinW64 alt s
  | .renderBinW128 alt => Sys2Proof.Machine.execRenderBinW128 alt s
  | .renderHexW8 alt => Sys2Proof.Machine.execRenderHexW8 alt s
  | .renderHexW16 alt => Sys2Proof.Machine.execRenderHexW16 alt s
  | .renderHexW32 alt => Sys2Proof.Machine.execRenderHexW32 alt s
  | .renderHexW64 alt => Sys2Proof.Machine.execRenderHexW64 alt s
  | .renderHexW128 alt => Sys2Proof.Machine.execRenderHexW128 alt s

end Sys2Proof.Machine
end

