-- ==== Sys2Proof/Machine/Step.lean ====
section
/-! DEFINITION. One step: one operation performed on the present inputs (R7, R29). -/

namespace Sys2Proof.Machine

/-- One operation, from its selector and operands to its outcome, in one indivisible step (R29).  The width check precedes
every other step of every operation (R104, R106). -/
def step (s : State) : Host.Outcome State Fault Refusal :=
  match decodeSel s.sel with
  | .instr i => exec i s
  | .unsupportedWidth wsel => takeUnsupportedWidth wsel s

/-- `s` with the selector `w` presented.  The block fetches nothing (R16): its next operation is the one its selector input
names, so this sets `sel` and nothing else (DEDUCED, log entry 7). -/
def State.withFetchWord (s : State) (_nbits w : Nat) : State := { s with sel := BitVec.ofNat 6 w }

end Sys2Proof.Machine
end

