-- ==== Sys2Proof/Config.lean ====
section
/-! DEFINITION. What a hardware instance fixes and the spec leaves open: `N_MAX` (R9, D7). -/

namespace Sys2Proof

/-- `N_MAX`: the largest number of packed words one DECODE of a given hardware instance accepts (R9, D7, U4), left OPEN by
the spec.  The machine itself takes any number of words; only the port form of a request mentions this bound (log entry
9). -/
opaque Config.nMax : Nat

end Sys2Proof
end

