-- ==== Sys2Proof/Machine/Ports.lean ====
section
/-! DEFINITION. The interface: the request a caller presents (R25), and the port mapping of requests and outcomes (R27, R63,
R64, R107).  The typed request and outcome are normative; the ports only transport them (R27). -/

namespace Sys2Proof.Machine

/-- A request (R25), with the operand word on its three 128-bit planes (R27, D8). -/
structure Request where
  sel : BitVec 6
  pk : List PackedWord
  opv : PortPlane
  opz : PortPlane
  opx : PortPlane
  deriving DecidableEq, Repr

/-- The request a state holds. -/
def State.request (s : State) : Request :=
  { sel := s.sel, pk := s.pk, opv := s.opv, opz := s.opz, opx := s.opx }

/-- The caller presents a request (R28).  The output ports follow at once (R117); the outcome taken last is left as it is. -/
def State.present (s : State) (r : Request) : State :=
  { s with sel := r.sel, pk := r.pk, opv := r.opv, opz := r.opz, opx := r.opx }

/-- The input ports of a hardware instance (R27, D8): `pk` holds the words on the ports `pk[k]`, `k < N_MAX`, of which only
those with `k < n` are read. -/
structure InPorts where
  sel : BitVec 6
  n : Nat
  pk : List PackedWord
  opv : PortPlane
  opz : PortPlane
  opx : PortPlane
  deriving DecidableEq, Repr

/-- The request the input ports carry (R27): the word ports `k < n`, and the operand planes (log entry 10). -/
def InPorts.request (p : InPorts) : Request :=
  { sel := p.sel, pk := p.pk.take p.n, opv := p.opv, opz := p.opz, opx := p.opx }

/-- The caller presents a request through the input ports (R27, R28). -/
def State.drive (s : State) (p : InPorts) : State := s.present p.request

/-- What an instance with at most `nMax` words can be given: "a request with `N > N_MAX` cannot be presented to that
instance" (R9, D7). -/
def InPorts.fits (nMax : Nat) (p : InPorts) : Bool := p.pk.length == nMax && decide (p.n ≤ nMax)

/-- The port form of a request fits the instance (R9). -/
abbrev InPorts.wf (p : InPorts) : Prop := p.fits Config.nMax = true

/-- The input ports that carry a request on an instance with `nMax` word ports; the word ports that are not read carry 0
(DESIGN CHOICE, log entry 21). -/
def InPorts.ofRequest (nMax : Nat) (r : Request) : InPorts :=
  { sel := r.sel, n := r.pk.length, pk := r.pk ++ List.replicate (nMax - r.pk.length) 0#64,
    opv := r.opv, opz := r.opz, opx := r.opx }

/-- The output ports (R27).  `dvList`, `dzList`, `dxList` and `chList` hold what an outcome defines; the ports themselves are
`dv`, `dz`, `dx` and `ch` below, which read 0 past the end (D11, log entry 11). -/
structure OutPorts where
  m : Nat
  dvList : List PortPlane
  dzList : List PortPlane
  dxList : List PortPlane
  st : BitVec 256
  len : Nat
  chList : List Byte
  err : Bool
  cause : BitVec 4
  cinfo : BitVec 3
  deriving DecidableEq, Repr

/-- `dv[i][127:0]`; words at `i >= m` read 0 (R27, D11). -/
def OutPorts.dv (p : OutPorts) (i : Nat) : PortPlane := p.dvList.getD i 0#128

/-- `dz[i][127:0]`; words at `i >= m` read 0 (R27, D11). -/
def OutPorts.dz (p : OutPorts) (i : Nat) : PortPlane := p.dzList.getD i 0#128

/-- `dx[i][127:0]`; words at `i >= m` read 0 (R27, D11). -/
def OutPorts.dx (p : OutPorts) (i : Nat) : PortPlane := p.dxList.getD i 0#128

/-- `ch[j][7:0]`; characters at `j >= len` read 0 (R27, D11). -/
def OutPorts.ch (p : OutPorts) (j : Nat) : Byte := p.chList.getD j 0#8

/-- The output ports when no operation's data is on them: every data output 0, no exception (R27, R107). -/
def OutPorts.quiet : OutPorts where
  m := 0
  dvList := []
  dzList := []
  dxList := []
  st := 0#256
  len := 0
  chList := []
  err := false
  cause := 0#4
  cinfo := 0#3

/-- `st[2p+1:2p]` is the code of position `p`; the bits above are 0 (R27, R63). -/
def packStates : List State4 → BitVec 256
  | [] => 0#256
  | s :: ss => (packStates ss <<< 2) ||| (stateCode s).setWidth 256

/-- The byte of a character: its ASCII code (R64; the spec took the codes from general knowledge, K1, log entry 15). -/
def charCode (c : Char) : Byte := BitVec.ofNat 8 c.toNat

/-- The cause code of `UnsupportedWidth` (R103). -/
def unsupportedWidthCause : BitVec 4 := 1#4

/-- The output ports of an outcome (R27, R63, R64, R107): a fault has `err = 1`, `cause = 1`, `cinfo = wsel` and every data
output 0; a success has `err = 0`, `cause = 0`, `cinfo = 0` and the data outputs of the operation performed. -/
def OutPorts.ofOutcome : OpOutcome → OutPorts
  | .ok (.decoded _ ws) =>
    { OutPorts.quiet with
      m := ws.length
      dvList := ws.map (fun f => f.value.setWidth 128)
      dzList := ws.map (fun f => f.highz.setWidth 128)
      dxList := ws.map (fun f => f.unknown.setWidth 128) }
  | .ok (.states ss) => { OutPorts.quiet with st := packStates ss }
  | .ok (.text cs) => { OutPorts.quiet with len := cs.length, chList := cs.map charCode }
  | .unsupportedWidth wsel =>
    { OutPorts.quiet with err := true, cause := unsupportedWidthCause, cinfo := wsel }

/-- The output ports in a state: "a function of its present inputs" (R17, R117), those of the outcome that the operation now
presented has.  The outcome taken last is not read, so the ports follow the inputs as soon as they are presented.  `step`
always answers a next state (R115), so the other two arms are never met. -/
def State.ports (s : State) : OutPorts :=
  match step s with
  | .next t => OutPorts.ofOutcome t.outcome
  | .fault _ => OutPorts.quiet
  | .refused _ => OutPorts.quiet

/-- The output ports as they stood when the caller took the last outcome (R28): a record of the caller's, no outputs of the
block between operations (log entry 22). -/
def State.takenPorts (s : State) : OutPorts := OutPorts.ofOutcome s.outcome

end Sys2Proof.Machine
end

