-- ==== Sys2Proof/Machine/Caller.lean ====
section
/-! DEFINITION. The caller's side: a request performed, and a sequence of requests (R16, R28, R108).  The block gives each
operation its outcome; which operations are performed, and in what order, is the caller's (R16). -/

namespace Sys2Proof.Machine

/-- The caller presents a request and the block performs it (R28). -/
def perform (r : Request) (s : State) : Host.Outcome State Fault Refusal := step (s.present r)

/-- A sequence of requests, one after the other: the outcomes in order, and the last state. -/
def performAll : List Request → State → Host.Outcome (List OpOutcome × State) Fault Refusal
  | [], s => .next ([], s)
  | r :: rs, s =>
    match perform r s with
    | .next t =>
      match performAll rs t with
      | .next (os, u) => .next (t.outcome :: os, u)
      | .fault f => .fault f
      | .refused q => .refused q
    | .fault f => .fault f
    | .refused q => .refused q

/-- The `wsel` of the first configuration error among some outcomes. -/
def firstFault : List OpOutcome → Option (BitVec 3)
  | [] => none
  | .unsupportedWidth wsel :: _ => some wsel
  | .ok _ :: os => firstFault os

/-- How a sequence ends: it "keeps a fault it meets as a fault of that sequence, which is never a successful end" (R108,
D10).  That every operation is still performed, and that the first fault is the one kept, is DEDUCED (log entry 5). -/
def sequenceEnd (os : List OpOutcome) (s : State) : Host.Outcome State Fault Refusal :=
  match firstFault os with
  | none => .next s
  | some wsel => .fault (.unsupportedWidth wsel)

/-- A sequence of requests, as one run (R108). -/
def runRequests (rs : List Request) (s : State) : Host.Outcome State Fault Refusal :=
  match performAll rs s with
  | .next (os, t) => sequenceEnd os t
  | .fault f => .fault f
  | .refused q => .refused q

end Sys2Proof.Machine
end

