-- ==== Sys2Proof/Machine/Notation.lean ====
section
/-! DEFINITION. The notation the spec writes programs in (R66, D18): its lines, what each assembles to, which lines make
sense, how a program runs, and how a line is read from text.  Names belong to the caller; they are no registers of the block.
How names and elements are looked up, and the spelling of names, numbers and spaces, are DESIGN CHOICES (log entries 17 and
18): R66 shows them by example. -/

namespace Sys2Proof.Machine

/-- The operands of a line (R66). -/
inductive LineOperand
  /-- `[<pk0>, <pk1>, ...]`. -/
  | packed (pk : List PackedWord)
  /-- `{v=<lit>, z=<lit>, x=<lit>}`. -/
  | word (v z x : PortPlane)
  /-- `<name>[i]`, element `i` of an earlier DECODE result. -/
  | element (name : String) (i : Nat)
  deriving DecidableEq, Repr

/-- One line (R66): the selector it assembles to, the caller's name for the result, and the operands. -/
structure Line where
  sel : BitVec 6
  dst : String
  operand : LineOperand
  deriving DecidableEq, Repr

/-- The results the caller has named so far, the latest first. -/
abbrev Results := List (String × OpOutcome)

/-- Element `i` of the latest result of a name, if that result is a DECODE's and has that element, on 128-bit planes. -/
def elementOf (env : Results) (name : String) (i : Nat) : Option (FourStateWord 128) :=
  match env.lookup name with
  | some (.ok (.decoded _ ws)) =>
    ws[i]?.map (fun f => ⟨f.value.setWidth 128, f.highz.setWidth 128, f.unknown.setWidth 128⟩)
  | _ => none

/-- The request a line presents, given the results so far.  An input its operation does not read is given as zero (R25). -/
def Line.request (l : Line) (env : Results) : Option Request :=
  match l.operand with
  | .packed pk => some { sel := l.sel, pk := pk, opv := 0#128, opz := 0#128, opx := 0#128 }
  | .word v z x => some { sel := l.sel, pk := [], opv := v, opz := z, opx := x }
  | .element name i =>
    (elementOf env name i).map
      (fun f => { sel := l.sel, pk := [], opv := f.value, opz := f.highz, opx := f.unknown })

/-- The refusal of a line whose operand is no element of an earlier DECODE result. -/
def Line.refusal (l : Line) : Refusal :=
  match l.operand with
  | .element name i => .noSuchElement name i
  | .packed _ => .noSuchElement l.dst 0
  | .word _ _ _ => .noSuchElement l.dst 0

/-- How a run ends at a line that presents no request, given the results so far: in the first fault that an earlier line met,
since a sequence keeps a fault it meets (R108, D10), and in the line's refusal where none did.  R108 does not speak of such a
line: that the fault wins over the refusal, and that the lines after it are not performed, is a DESIGN CHOICE (log entries 5
and 17). -/
def Line.unresolved (l : Line) (env : Results) : Host.Outcome (Results × State) Fault Refusal :=
  match firstFault (env.map (·.2)).reverse with
  | some wsel => .fault (.unsupportedWidth wsel)
  | none => .refused l.refusal

/-- The lines of a program, one after the other: every result under its name, and the last state.  It stops at a line that
presents no request. -/
def performLines : List Line → Results → State → Host.Outcome (Results × State) Fault Refusal
  | [], env, s => .next (env, s)
  | l :: ls, env, s =>
    match l.request env with
    | none => l.unresolved env
    | some r =>
      match perform r s with
      | .next t => performLines ls ((l.dst, t.outcome) :: env) t
      | .fault f => .fault f
      | .refused q => .refused q

/-- A program as one run; a fault one of its operations met, the first, is the fault it ends in (R108, D10), also where a
later line names no element and so ends the run (DESIGN CHOICE, log entries 5 and 17). -/
def runProgram (ls : List Line) (s : State) : Host.Outcome State Fault Refusal :=
  match performLines ls [] s with
  | .next (env, t) => sequenceEnd (env.map (·.2)).reverse t
  | .fault f => .fault f
  | .refused q => .refused q

/-- What a program text shows of its named results: the width and word count of a DECODE result, nothing for another. -/
abbrev Shapes := List (String × Option (Width × Nat))

/-- The shape of a line's result: a reader tells it "from the request alone, never from the data" (R65). -/
def Line.shape (l : Line) : Option (Width × Nat) :=
  match l.operand, widthOfCode (wselField l.sel), opOfCode (opField l.sel) with
  | .packed pk, some w, .decode => some (w, decodeCount w.bits pk.length)
  | _, _, _ => none

/-- A line makes sense (R25, R66): DECODE is given packed words and the others a word; a literal fits the selected width; an
element is one of an earlier DECODE result of the selected width.  At a width code that names no width, a literal need only
fit its port, and an element any DECODE result. -/
def lineWf (ctx : Shapes) (l : Line) : Bool :=
  match l.operand, opOfCode (opField l.sel) with
  | .packed _, .decode => true
  | .packed _, _ => false
  | .word _ _ _, .decode => false
  | .word v z x, _ =>
    match widthOfCode (wselField l.sel) with
    | none => true
    | some w => decide (v.toNat < 2 ^ w.bits) && decide (z.toNat < 2 ^ w.bits) && decide (x.toNat < 2 ^ w.bits)
  | .element _ _, .decode => false
  | .element name i, _ =>
    match ctx.lookup name with
    | some (some (w', m)) =>
      decide (i < m) &&
        (match widthOfCode (wselField l.sel) with
         | none => true
         | some w => decide (w = w'))
    | _ => false

/-- Every line of a program makes sense where it stands. -/
def programWf : Shapes → List Line → Bool
  | _, [] => true
  | ctx, l :: ls => lineWf ctx l && programWf ((l.dst, l.shape) :: ctx) ls

/-- The operation names (R66; `asm` of spec/opcode_table.json) and the selectors they assemble to.  `.alt` sets `alt = 1`;
`decode` and `resolve` assemble with `alt = 0`.  There are no pseudo-instructions. -/
def lineNames : List (String × BitVec 6) :=
  [("decode.w8", 0x00#6), ("decode.w16", 0x01#6), ("decode.w32", 0x02#6), ("decode.w64", 0x03#6),
   ("decode.w128", 0x04#6)] ++
  [("resolve.w8", 0x10#6), ("resolve.w16", 0x11#6), ("resolve.w32", 0x12#6), ("resolve.w64", 0x13#6),
   ("resolve.w128", 0x14#6)] ++
  [("rbin.w8", 0x20#6), ("rbin.w16", 0x21#6), ("rbin.w32", 0x22#6), ("rbin.w64", 0x23#6), ("rbin.w128", 0x24#6),
   ("rbin.w8.alt", 0x28#6), ("rbin.w16.alt", 0x29#6), ("rbin.w32.alt", 0x2A#6), ("rbin.w64.alt", 0x2B#6),
   ("rbin.w128.alt", 0x2C#6)] ++
  [("rhex.w8", 0x30#6), ("rhex.w16", 0x31#6), ("rhex.w32", 0x32#6), ("rhex.w64", 0x33#6), ("rhex.w128", 0x34#6),
   ("rhex.w8.alt", 0x38#6), ("rhex.w16.alt", 0x39#6), ("rhex.w32.alt", 0x3A#6), ("rhex.w64.alt", 0x3B#6),
   ("rhex.w128.alt", 0x3C#6)]

/-- Text without the spaces it begins with. -/
def skipSpaces (cs : List Char) : List Char := cs.dropWhile (· == ' ')

/-- The rest of a text that begins, after spaces, with a given character. -/
def expect (c : Char) (cs : List Char) : Option (List Char) :=
  match skipSpaces cs with
  | d :: rest => if d = c then some rest else none
  | [] => none

/-- The value of a digit, in either letter case. -/
def digitValue (c : Char) : Option Nat :=
  if '0' ≤ c ∧ c ≤ '9' then some (c.toNat - '0'.toNat)
  else if 'a' ≤ c ∧ c ≤ 'f' then some (c.toNat - 'a'.toNat + 10)
  else if 'A' ≤ c ∧ c ≤ 'F' then some (c.toNat - 'A'.toNat + 10)
  else none

/-- Digits of a base, most significant first; `_` only separates. -/
def digitsValue (base : Nat) : Nat → List Char → Option Nat
  | acc, [] => some acc
  | acc, c :: cs =>
    if c = '_' then digitsValue base acc cs
    else
      match digitValue c with
      | none => none
      | some d => if d < base then digitsValue base (acc * base + d) cs else none

/-- Whether a character can stand in a name or a number. -/
def wordChar (c : Char) : Bool := c.isAlphanum || c == '_'

/-- A number, `0x` and hexadecimal digits or decimal digits, and the rest of the text. -/
def readNumber (cs : List Char) : Option (Nat × List Char) :=
  let body := (skipSpaces cs).takeWhile wordChar
  let rest := (skipSpaces cs).dropWhile wordChar
  match body with
  | [] => none
  | '0' :: 'x' :: d :: ds => (digitsValue 16 0 (d :: ds)).map (fun n => (n, rest))
  | ds => (digitsValue 10 0 ds).map (fun n => (n, rest))

/-- A hexadecimal number, with its `0x`, and the rest of the text. -/
def readHex (cs : List Char) : Option (Nat × List Char) :=
  match skipSpaces cs with
  | '0' :: 'x' :: rest => readNumber ('0' :: 'x' :: rest)
  | _ => none

/-- A name, and the rest of the text. -/
def readName (cs : List Char) : Option (String × List Char) :=
  match (skipSpaces cs).takeWhile wordChar with
  | [] => none
  | c :: rest => some (String.ofList (c :: rest), (skipSpaces cs).dropWhile wordChar)

/-- Packed words separated by commas up to the closing bracket; `fuel` bounds how many. -/
def readPacked : Nat → List Char → Option (List PackedWord × List Char)
  | 0, _ => none
  | fuel + 1, cs =>
    match readNumber cs with
    | none => none
    | some (n, rest) =>
      if n < 2 ^ 64 then
        match expect ',' rest with
        | some rest' => (readPacked fuel rest').map (fun p => (BitVec.ofNat 64 n :: p.1, p.2))
        | none => (expect ']' rest).map (fun rest' => ([BitVec.ofNat 64 n], rest'))
      else none

/-- One plane of a word literal: its letter, `=`, and a number that fits the port. -/
def readPlane (letter : Char) (cs : List Char) : Option (PortPlane × List Char) :=
  match (expect letter cs).bind (expect '=') with
  | none => none
  | some rest =>
    match readNumber rest with
    | none => none
    | some (n, rest') => if n < 2 ^ 128 then some (BitVec.ofNat 128 n, rest') else none

/-- The character before the planes of a word literal: code point 7B. -/
def openBrace : Char := Char.ofNat 0x7B

/-- The character after the planes of a word literal: code point 7D. -/
def closeBrace : Char := Char.ofNat 0x7D

/-- A word literal after its opening brace. -/
def readWord (cs : List Char) : Option (LineOperand × List Char) :=
  match readPlane 'v' cs with
  | none => none
  | some (v, c1) =>
    match (expect ',' c1).bind (readPlane 'z') with
    | none => none
    | some (z, c2) =>
      match (expect ',' c2).bind (readPlane 'x') with
      | none => none
      | some (x, c3) => (expect closeBrace c3).map (fun rest => (.word v z x, rest))

/-- The operand of a line, and the rest of the text. -/
def readOperand (cs : List Char) : Option (LineOperand × List Char) :=
  match skipSpaces cs with
  | [] => none
  | c :: rest =>
    if c = '[' then
      match expect ']' rest with
      | some rest' => some (.packed [], rest')
      | none => (readPacked rest.length rest).map (fun p => (.packed p.1, p.2))
    else if c = openBrace then readWord rest
    else
      match readName (c :: rest) with
      | none => none
      | some (name, c1) =>
        match (expect '[' c1).bind readNumber with
        | none => none
        | some (i, c2) => (expect ']' c2).map (fun rest' => (.element name i, rest'))

/-- The selector at the start of a line: an operation name, or `sel` and a hexadecimal number of 6 bits (R66). -/
def readSelector (cs : List Char) : Option (BitVec 6 × List Char) :=
  let word := String.ofList ((skipSpaces cs).takeWhile (· != ' '))
  let rest := (skipSpaces cs).dropWhile (· != ' ')
  if word = "sel" then
    match readHex rest with
    | none => none
    | some (n, rest') => if n < 64 then some (BitVec.ofNat 6 n, rest') else none
  else (lineNames.lookup word).map (fun sel => (sel, rest))

/-- A line of text (R66), up to its end or a `;` that begins a remark. -/
def readLine (cs : List Char) : Option Line :=
  match readSelector cs with
  | none => none
  | some (sel, c1) =>
    match readName c1 with
    | none => none
    | some (dst, c2) =>
      match (expect ',' c2).bind readOperand with
      | none => none
      | some (operand, c3) =>
        match skipSpaces c3 with
        | [] => some { sel := sel, dst := dst, operand := operand }
        | c :: _ => if c = ';' then some { sel := sel, dst := dst, operand := operand } else none

end Sys2Proof.Machine
end

