-- ==== Sys2Proof/Safety.lean ====
section
/-! DEFINITION. What counts as a successful operation and a safe run, in the terms the statements use. -/

namespace Sys2Proof

/-- An outcome is a success (R26): it is no configuration error. -/
def Machine.OpOutcome.succeeded : Machine.OpOutcome → Bool
  | .ok _ => true
  | .unsupportedWidth _ => false

/-- A selector names a supported width (R59, R61): the one thing a caller that wants a result, not a fault, must see to
(R118). -/
def supportedSelector (sel : BitVec 6) : Bool := (widthOfCode (wselField sel)).isSome

/-- A sequence of requests is safe when it ends in no fault (R108, D10). -/
abbrev safeSequence (rs : List Machine.Request) : Prop := ∀ r ∈ rs, supportedSelector r.sel = true

/-- The output ports keep the discipline of R27, R103 and R107: the cause is 0 or 1, `err` says which, `cinfo` is a code that
names no width exactly on a fault and 0 otherwise, and on a fault every data output is 0. -/
structure Machine.OutPorts.Disciplined (p : Machine.OutPorts) : Prop where
  cause_le_one : p.cause = 0#4 ∨ p.cause = 1#4
  err_iff_cause : p.err = true ↔ p.cause = 1#4
  fault_cinfo : p.err = true → widthOfCode p.cinfo = none
  ok_cinfo : p.err = false → p.cinfo = 0#3
  fault_data : p.err = true → p.m = 0 ∧ p.st = 0#256 ∧ p.len = 0 ∧
    ∀ i, p.dv i = 0#128 ∧ p.dz i = 0#128 ∧ p.dx i = 0#128 ∧ p.ch i = 0#8
  one_family : (p.m = 0 ∨ p.len = 0) ∧ (p.st = 0#256 ∨ (p.m = 0 ∧ p.len = 0))
  past_m : ∀ i, p.m ≤ i → p.dv i = 0#128 ∧ p.dz i = 0#128 ∧ p.dx i = 0#128
  past_len : ∀ j, p.len ≤ j → p.ch j = 0#8
  len_le : p.len ≤ 130

end Sys2Proof
end

