-- ==== Sys2Proof/Certificates/Slice0/Obligations.lean ====
section
/-! DEFINITION. The statements for the provers, and the predicates they are written with.  A docstring names the rule of spec/
a statement formalises. -/

open Sys2Proof Sys2Proof.Machine

/-- Logical bit `q` of a packed vector as its pair `(a, b)` (R39, R52, R53), written out on the packed words themselves; past
the end it is `(0, 0)` (R77). -/
def Sys2Proof.Claims.pairAt (pk : List PackedWord) (q : Nat) : Bool × Bool :=
  match pk[q / 32]? with
  | some w => (w.getLsbD (q % 32), w.getLsbD (32 + q % 32))
  | none => (false, false)

/-- A state is the one the priority rule gives a position's three bits (R68). -/
abbrev Sys2Proof.Claims.StateReads (v z x : Bool) (st : State4) : Prop :=
  (z = true → st = .z) ∧ (z = false → x = true → st = .x) ∧
  (z = false → x = false → v = true → st = .one) ∧ (z = false → x = false → v = false → st = .zero)

/-- A character is the one the binary renderer emits for a position's three bits (R88). -/
abbrev Sys2Proof.Claims.BinReads (v z x : Bool) (c : Char) : Prop :=
  (z = true → c = 'z') ∧ (z = false → x = true → c = 'x') ∧
  (z = false → x = false → v = true → c = '1') ∧ (z = false → x = false → v = false → c = '0')

/-- The sixteen hexadecimal digits, in the order of their values (R92; the spec marks the glyphs as general knowledge, K2, log
entry 16). -/
def Sys2Proof.Claims.hexGlyphs : List Char :=
  ['0', '1', '2', '3', '4', '5', '6', '7', '8', '9', 'a', 'b', 'c', 'd', 'e', 'f']

/-- A character is the one the hexadecimal renderer emits for a nibble's three slices (R91, R92). -/
abbrev Sys2Proof.Claims.HexReads (vs zs xs : BitVec 4) (c : Char) : Prop :=
  (zs = 0xF#4 → c = 'z') ∧ (zs ≠ 0xF#4 → zs ≠ 0#4 → c = 'Z') ∧
  (zs = 0#4 → xs = 0xF#4 → c = 'x') ∧ (zs = 0#4 → xs ≠ 0xF#4 → xs ≠ 0#4 → c = 'X') ∧
  (zs = 0#4 → xs = 0#4 → Claims.hexGlyphs[vs.toNat]? = some c)

/-- The words of a decode at width `W`: how many (R74), and every bit of every plane of each (R75, R76, R77). -/
abbrev Sys2Proof.Claims.DecodedAs (W : Nat) (pk : List PackedWord) (ws : List (FourStateWord W)) : Prop :=
  ws.length = (32 * pk.length + W - 1) / W ∧
  ∀ i f, ws[i]? = some f → ∀ p, p < W →
    f.value.getLsbD p = ((Claims.pairAt pk (i * W + p)).1 && !(Claims.pairAt pk (i * W + p)).2) ∧
    f.highz.getLsbD p = ((Claims.pairAt pk (i * W + p)).2 && !(Claims.pairAt pk (i * W + p)).1) ∧
    f.unknown.getLsbD p = ((Claims.pairAt pk (i * W + p)).1 && (Claims.pairAt pk (i * W + p)).2)

/-- An instruction is a DECODE at a width: in every state it completes with the words of that width, and changes nothing but
the outcome (R73). -/
abbrev Sys2Proof.Claims.Decodes (w : Width) (i : Instr) : Prop :=
  ∀ s, ∃ ws : List (FourStateWord w.bits),
    exec i s = .next { s with outcome := .ok (.decoded w ws) } ∧ Claims.DecodedAs w.bits s.pk ws

/-- An instruction is a RESOLVE at width `W`: in every state it completes with the `W` states of the operand word, and changes
nothing but the outcome (R67, R68). -/
abbrev Sys2Proof.Claims.Resolves (W : Nat) (i : Instr) : Prop :=
  ∀ s, ∃ ss : List State4, exec i s = .next { s with outcome := .ok (.states ss) } ∧ ss.length = W ∧
    ∀ p st, ss[p]? = some st → Claims.StateReads (s.opv.getLsbD p) (s.opz.getLsbD p) (s.opx.getLsbD p) st

/-- An instruction is a RENDER_BIN at width `W`: in every state it completes with the text of the operand word, and changes
nothing but the outcome (R87, R88, R89).  Digit `j` is that of position `W - 1 - j`. -/
abbrev Sys2Proof.Claims.RendersBin (W : Nat) (alt : Bool) (i : Instr) : Prop :=
  ∀ s, ∃ ds : List Char,
    exec i s = .next { s with outcome := .ok (.text (if alt then '0' :: 'b' :: ds else ds)) } ∧ ds.length = W ∧
    ∀ j c, ds[j]? = some c →
      Claims.BinReads (s.opv.getLsbD (W - 1 - j)) (s.opz.getLsbD (W - 1 - j)) (s.opx.getLsbD (W - 1 - j)) c

/-- An instruction is a RENDER_HEX at width `W`: in every state it completes with the text of the operand word, and changes
nothing but the outcome (R90, R91, R93, R94).  Digit `j` is that of nibble `W / 4 - 1 - j`. -/
abbrev Sys2Proof.Claims.RendersHex (W : Nat) (alt : Bool) (i : Instr) : Prop :=
  ∀ s, ∃ ds : List Char,
    exec i s = .next { s with outcome := .ok (.text (if alt then '0' :: 'x' :: ds else ds)) } ∧ ds.length = W / 4 ∧
    ∀ j c, ds[j]? = some c →
      Claims.HexReads (s.opv.extractLsb' (4 * (W / 4 - 1 - j)) 4) (s.opz.extractLsb' (4 * (W / 4 - 1 - j)) 4)
        (s.opx.extractLsb' (4 * (W / 4 - 1 - j)) 4) c

/-- Two states hold the same inputs, and every byte of both streams reads the same in them. -/
abbrev Sys2Proof.Claims.SameInputs (s t : State) : Prop :=
  t.sel = s.sel ∧ t.pk = s.pk ∧ t.opv = s.opv ∧ t.opz = s.opz ∧ t.opx = s.opx ∧
  ∀ a, readByte (streamA t.pk) a = readByte (streamA s.pk) a ∧ readByte (streamB t.pk) a = readByte (streamB s.pk) a

/-- A step of `s` ends in a DECODE result whose word `i` is `f`. -/
abbrev Sys2Proof.Claims.DecodesTo (s : State) (w : Width) (i : Nat) (f : FourStateWord w.bits) : Prop :=
  ∃ t ws, step s = .next t ∧ t.outcome = .ok (.decoded w ws) ∧ ws[i]? = some f

/-- How many positions of nibble `k` of a word are in a state (R97). -/
def Sys2Proof.Claims.countIn {W : Nat} (f : FourStateWord W) (k : Nat) (st : State4) : Nat :=
  [f.stateAt (4 * k), f.stateAt (4 * k + 1), f.stateAt (4 * k + 2), f.stateAt (4 * k + 3)].count st

/-- The binary character of a state (R88): 0 to `0`, 1 to `1`, X to `x`, Z to `z`. -/
def Sys2Proof.Claims.stateGlyph : State4 → Char
  | .zero => '0'
  | .one => '1'
  | .x => 'x'
  | .z => 'z'

/-- The characters a renderer can emit, the ones of the alternate mode included (R64). -/
def Sys2Proof.Claims.alphabet : List Char := Claims.hexGlyphs ++ ['x', 'z', 'X', 'Z']

/-! ### The selector -/

/-- R62: `decode_sel`, code by code; the 40 named selectors and the 24 reserved ones. -/
def Obligations.SelectorCodesDecode : Prop :=
  (∀ alt : Bool,
    decodeSel (0b00#2 ++ BitVec.ofBool alt ++ 0b000#3) = .instr (.decodeW8 alt) ∧
    decodeSel (0b00#2 ++ BitVec.ofBool alt ++ 0b001#3) = .instr (.decodeW16 alt) ∧
    decodeSel (0b00#2 ++ BitVec.ofBool alt ++ 0b010#3) = .instr (.decodeW32 alt) ∧
    decodeSel (0b00#2 ++ BitVec.ofBool alt ++ 0b011#3) = .instr (.decodeW64 alt) ∧
    decodeSel (0b00#2 ++ BitVec.ofBool alt ++ 0b100#3) = .instr (.decodeW128 alt) ∧
    decodeSel (0b01#2 ++ BitVec.ofBool alt ++ 0b000#3) = .instr (.resolveW8 alt) ∧
    decodeSel (0b01#2 ++ BitVec.ofBool alt ++ 0b001#3) = .instr (.resolveW16 alt) ∧
    decodeSel (0b01#2 ++ BitVec.ofBool alt ++ 0b010#3) = .instr (.resolveW32 alt) ∧
    decodeSel (0b01#2 ++ BitVec.ofBool alt ++ 0b011#3) = .instr (.resolveW64 alt) ∧
    decodeSel (0b01#2 ++ BitVec.ofBool alt ++ 0b100#3) = .instr (.resolveW128 alt) ∧
    decodeSel (0b10#2 ++ BitVec.ofBool alt ++ 0b000#3) = .instr (.renderBinW8 alt) ∧
    decodeSel (0b10#2 ++ BitVec.ofBool alt ++ 0b001#3) = .instr (.renderBinW16 alt) ∧
    decodeSel (0b10#2 ++ BitVec.ofBool alt ++ 0b010#3) = .instr (.renderBinW32 alt) ∧
    decodeSel (0b10#2 ++ BitVec.ofBool alt ++ 0b011#3) = .instr (.renderBinW64 alt) ∧
    decodeSel (0b10#2 ++ BitVec.ofBool alt ++ 0b100#3) = .instr (.renderBinW128 alt) ∧
    decodeSel (0b11#2 ++ BitVec.ofBool alt ++ 0b000#3) = .instr (.renderHexW8 alt) ∧
    decodeSel (0b11#2 ++ BitVec.ofBool alt ++ 0b001#3) = .instr (.renderHexW16 alt) ∧
    decodeSel (0b11#2 ++ BitVec.ofBool alt ++ 0b010#3) = .instr (.renderHexW32 alt) ∧
    decodeSel (0b11#2 ++ BitVec.ofBool alt ++ 0b011#3) = .instr (.renderHexW64 alt) ∧
    decodeSel (0b11#2 ++ BitVec.ofBool alt ++ 0b100#3) = .instr (.renderHexW128 alt)) ∧
  ∀ (op : BitVec 2) (alt : Bool) (wsel : BitVec 3), 5 ≤ wsel.toNat →
    decodeSel (op ++ BitVec.ofBool alt ++ wsel) = .unsupportedWidth wsel

/-- Decode and encode agree both ways: every instruction is read back from its selector, and a selector that names an
instruction is that instruction's own (R57 to R62). -/
def Obligations.SelectorRoundTrip : Prop :=
  (∀ i, decodeSel (encode i) = .instr i) ∧
  (∀ sel i, decodeSel sel = .instr i → encode i = sel) ∧
  (∀ sel wsel, decodeSel sel = .unsupportedWidth wsel → ∀ i, encode i ≠ sel)

/-- R61: exactly the selectors whose `wsel` is 101, 110 or 111 are reserved, 24 of the 64; performing one ends in the fault with
that `wsel`, and performing any other does not. -/
def Obligations.ReservedSelectorsFault : Prop :=
  (∀ s t, step s = .next t →
    ((∃ wsel, t.outcome = .unsupportedWidth wsel) ↔ 5 ≤ (wselField s.sel).toNat) ∧
    ∀ wsel, t.outcome = .unsupportedWidth wsel → wsel = wselField s.sel) ∧
  ((List.range 64).filter (fun n => decide (5 ≤ (wselField (BitVec.ofNat 6 n)).toNat))).length = 24

/-- R62, last clause: the decoder by match and mask over the opcode table gives the same answer, and no two rows overlap. -/
def Obligations.TableDecoderAgrees : Prop :=
  (∀ sel, decodeByTable sel = decodeSel sel) ∧
  opcodeRows.Pairwise (fun r q => ∀ sel : BitVec 6, ¬(sel &&& r.mask = r.pattern ∧ sel &&& q.mask = q.pattern))

/-- R60: DECODE and RESOLVE ignore `alt`; for the renderers `alt = 1` adds the prefix `0b` or `0x` to what `alt = 0` gives. -/
def Obligations.AltOnlyAddsThePrefix : Prop :=
  ∀ (s : State) (w : Width),
    exec (instrOf .decode w true) s = exec (instrOf .decode w false) s ∧
    exec (instrOf .resolve w true) s = exec (instrOf .resolve w false) s ∧
    (∃ ds, exec (instrOf .renderBin w false) s = .next { s with outcome := .ok (.text ds) } ∧
      exec (instrOf .renderBin w true) s = .next { s with outcome := .ok (.text ('0' :: 'b' :: ds)) }) ∧
    ∃ ds, exec (instrOf .renderHex w false) s = .next { s with outcome := .ok (.text ds) } ∧
      exec (instrOf .renderHex w true) s = .next { s with outcome := .ok (.text ('0' :: 'x' :: ds)) }

/-! ### The step -/

/-- A step runs the decoded instruction: when the selector decodes to an instruction, the step is that instruction, with
nothing around it (R7, R29, R62). -/
def Obligations.StepRunsDecodedInstruction : Prop :=
  ∀ s i, decodeSel s.sel = .instr i → step s = exec i s

/-- R104: a selector with `wsel` 101, 110 or 111 raises `UnsupportedWidth(wsel)`, whatever its `op`, its `alt` and its
operands; the outcome is the fault, which carries no result, and nothing else changes (R107).  That raising it is a next state
of the machine, which goes on, is DEDUCED from R107 and R108 (log entry 4). -/
def Obligations.UnsupportedWidthIsRaised : Prop :=
  ∀ s, 5 ≤ (wselField s.sel).toNat →
    step s = .next { s with outcome := .unsupportedWidth (wselField s.sel) }

/-- R107: raising `UnsupportedWidth` changes nothing but the outcome, and on the ports `err = 1`, `cause = 1`, `cinfo = wsel` and
every data output is 0; after a supported width `err = 0`, `cause = 0`, `cinfo = 0`. -/
def Obligations.ErrorPortsTellTheFault : Prop :=
  ∀ s t, step s = .next t →
    (5 ≤ (wselField s.sel).toNat →
      Claims.SameInputs s t ∧ t.outcome = .unsupportedWidth (wselField s.sel) ∧
      t.ports.err = true ∧ t.ports.cause = 1#4 ∧ t.ports.cinfo = wselField s.sel ∧
      t.ports.m = 0 ∧ t.ports.st = 0#256 ∧ t.ports.len = 0 ∧
      ∀ i, t.ports.dv i = 0#128 ∧ t.ports.dz i = 0#128 ∧ t.ports.dx i = 0#128 ∧ t.ports.ch i = 0#8) ∧
    ((wselField s.sel).toNat < 5 → t.ports.err = false ∧ t.ports.cause = 0#4 ∧ t.ports.cinfo = 0#3)

/-- R108: the fault is not sticky.  After a request that met an unsupported width, any request ends as it does from the state
before. -/
def Obligations.FaultIsNotSticky : Prop :=
  ∀ r q s t, supportedSelector r.sel = false → perform r s = .next t → perform q t = perform q s

/-- R105, R26: with a supported width every operation completes with a result of its own form. -/
def Obligations.SupportedWidthsSucceed : Prop :=
  ∀ (s : State) (w : Width), wselField s.sel = widthCode w →
    ∃ r, step s = .next { s with outcome := .ok r } ∧
      (opField s.sel = 0b00#2 →
        ∃ ws : List (FourStateWord w.bits), r = .decoded w ws ∧ ws.length = (32 * s.pk.length + w.bits - 1) / w.bits) ∧
      (opField s.sel = 0b01#2 → ∃ ss, r = .states ss ∧ ss.length = w.bits) ∧
      (opField s.sel = 0b10#2 → ∃ cs, r = .text cs ∧ cs.length = w.bits + (if s.sel.getLsbD 3 then 2 else 0)) ∧
      (opField s.sel = 0b11#2 → ∃ cs, r = .text cs ∧ cs.length = w.bits / 4 + (if s.sel.getLsbD 3 then 2 else 0))

/-- R17, R25: the outcome of an operation depends only on its selector and on the operands it reads, DECODE on the packed
vector and the others on the low `W` bits of the operand planes; not on the outcome before it. -/
def Obligations.OutcomeDependsOnOwnInputsOnly : Prop :=
  ∀ s t s' t', s.sel = t.sel →
    (opField s.sel = 0b00#2 → s.pk = t.pk) →
    (opField s.sel ≠ 0b00#2 → ∀ w, widthOfCode (wselField s.sel) = some w → ∀ p, p < w.bits →
      s.opv.getLsbD p = t.opv.getLsbD p ∧ s.opz.getLsbD p = t.opz.getLsbD p ∧ s.opx.getLsbD p = t.opx.getLsbD p) →
    step s = .next s' → step t = .next t' → s'.outcome = t'.outcome

/-- R34, R17: the frame of every instruction.  No instruction changes an input, and every byte of both streams reads after it
as before. -/
def Obligations.InstructionsChangeOnlyTheOutcome : Prop :=
  ∀ i s t, exec i s = .next t → Claims.SameInputs s t

/-- The same of a step, the raising of an unsupported width included (R17, R107). -/
def Obligations.StepChangesOnlyTheOutcome : Prop :=
  ∀ s t, step s = .next t → Claims.SameInputs s t

/-- R46: an operation has no side effect on what it reads, and it is idempotent: performed again, it gives the same state. -/
def Obligations.StepIsIdempotent : Prop :=
  ∀ s t, step s = .next t → Claims.SameInputs s t ∧ step t = .next t

/-- R115: every operation ends, and in exactly one outcome: a step always answers a next state.  That it does so for a selector
that raises UnsupportedWidth, and answers no fault of the host's interface there, is DEDUCED (log entry 4). -/
def Obligations.EveryStepAnswersANextState : Prop :=
  ∀ s, ∃ t, step s = .next t

/-! ### DECODE -/

/-- R73, R75, R76, R77: each of DECODE's five instructions completes in every state, with `M` words whose every bit is the one
the pair of its logical bit gives; nothing but the outcome changes. -/
def Obligations.DecodeAnswersTheWords : Prop :=
  ∀ alt, Claims.Decodes .w8 (.decodeW8 alt) ∧ Claims.Decodes .w16 (.decodeW16 alt) ∧
    Claims.Decodes .w32 (.decodeW32 alt) ∧ Claims.Decodes .w64 (.decodeW64 alt) ∧
    Claims.Decodes .w128 (.decodeW128 alt)

/-- R74: the output count, by its formula and at each width. -/
def Obligations.DecodeCounts : Prop :=
  ∀ (w : Width) (pk : List PackedWord),
    (decodeWords w.bits pk).length = (32 * pk.length + w.bits - 1) / w.bits ∧
    (decodeWords w.bits pk).length = match w with
      | .w8 => 4 * pk.length
      | .w16 => 2 * pk.length
      | .w32 => pk.length
      | .w64 => (pk.length + 1) / 2
      | .w128 => (pk.length + 3) / 4

/-- R78: with no packed words DECODE returns the empty sequence, at every supported width; a success. -/
def Obligations.DecodeOfNothingIsEmpty : Prop :=
  ∀ (w : Width) (alt : Bool) (s : State), s.pk = [] →
    exec (instrOf .decode w alt) s = .next { s with outcome := .ok (.decoded w []) }

/-- R80: in every word DECODE returns the planes are pairwise disjoint, and their or is `A_i | B_i`. -/
def Obligations.DecodedPlanesAreDisjoint : Prop :=
  ∀ s w i f, Claims.DecodesTo s w i f →
    f.value &&& f.highz = 0 ∧ f.value &&& f.unknown = 0 ∧ f.highz &&& f.unknown = 0 ∧
    f.value ||| f.highz ||| f.unknown = groupA w.bits s.pk i ||| groupB w.bits s.pk i

/-- R81: every position of every word DECODE returns resolves to the state the pair encoding gives its logical bit, and to 0
past the end of the vector. -/
def Obligations.DecodedWordsAgreeWithPairEncoding : Prop :=
  ∀ s w i f, Claims.DecodesTo s w i f → ∀ p, p < w.bits →
    (i * w.bits + p < 32 * s.pk.length →
      resolveBit (f.value.getLsbD p) (f.highz.getLsbD p) (f.unknown.getLsbD p) =
        pairState (Claims.pairAt s.pk (i * w.bits + p)).1 (Claims.pairAt s.pk (i * w.bits + p)).2) ∧
    (32 * s.pk.length ≤ i * w.bits + p →
      resolveBit (f.value.getLsbD p) (f.highz.getLsbD p) (f.unknown.getLsbD p) = .zero)

/-- R82: with every b-plane bit 0, each word's value is its a-plane bits and its highz and unknown planes are zero. -/
def Obligations.PureValueRoundTrip : Prop :=
  ∀ s w i f, Claims.DecodesTo s w i f → (∀ x ∈ s.pk, x.extractLsb' 32 32 = 0#32) →
    f.value = groupA w.bits s.pk i ∧ f.highz = 0 ∧ f.unknown = 0 ∧
    ∀ p, p < w.bits → f.value.getLsbD p = (Claims.pairAt s.pk (i * w.bits + p)).1

/-- R83: a word at width `2W` is, plane by plane, word `2i + 1` above word `2i` at width `W`, a word past the last standing for
zero. -/
def Obligations.DoubleWidthWordsConcatenate : Prop :=
  ∀ (W : Nat), W ∈ [8, 16, 32, 64] → ∀ (pk : List PackedWord) (i : Nat) (f : FourStateWord (W + W)),
    (decodeWords (W + W) pk)[i]? = some f →
      let hi := (decodeWords W pk).getD (2 * i + 1) ⟨0, 0, 0⟩
      let lo := (decodeWords W pk).getD (2 * i) ⟨0, 0, 0⟩
      f.value = hi.value ++ lo.value ∧ f.highz = hi.highz ++ lo.highz ∧ f.unknown = hi.unknown ++ lo.unknown

/-- R85: two packed words at width 128 give exactly one word, and its upper half is zero in all planes. -/
def Obligations.TwoWordsAtWidth128ArePadded : Prop :=
  ∀ s alt u v, s.pk = [u, v] →
    ∃ f : FourStateWord 128, exec (.decodeW128 alt) s = .next { s with outcome := .ok (.decoded .w128 [f]) } ∧
      f.value.extractLsb' 64 64 = 0#64 ∧ f.highz.extractLsb' 64 64 = 0#64 ∧ f.unknown.extractLsb' 64 64 = 0#64

/-! ### The byte view of the packed vector -/

/-- R36: byte `j` of word `k`'s a-plane is at address `4k + j` of stream A, and of its b-plane at the same address of stream
B; both streams have `4N` bytes. -/
def Obligations.StreamBytesAreThePlanes : Prop :=
  ∀ (pk : List PackedWord),
    (streamBytesA pk).length = 4 * pk.length ∧ (streamBytesB pk).length = 4 * pk.length ∧
    ∀ k j w, pk[k]? = some w → j < 4 →
      readByte (streamA pk) (4 * k + j) = w.extractLsb' (8 * j) 8 ∧
      readByte (streamB pk) (4 * k + j) = w.extractLsb' (32 + 8 * j) 8

/-- R41: a byte at or past `4N` reads as zero in both streams; a group reads past the end only in the last word of a DECODE,
and only when `W = 64` and `N` is odd, or `W = 128` and `N mod 4` is not 0. -/
def Obligations.AbsentBytesReadZero : Prop :=
  (∀ (pk : List PackedWord) a, 4 * pk.length ≤ a →
    readByte (streamA pk) a = 0#8 ∧ readByte (streamB pk) a = 0#8) ∧
  ∀ (w : Width) (N i : Nat), i < decodeCount w.bits N →
    (4 * N < (i + 1) * (w.bits / 8) ↔
      (i + 1 = decodeCount w.bits N ∧ ((w = .w64 ∧ N % 2 = 1) ∨ (w = .w128 ∧ N % 4 ≠ 0))))

/-- R40: byte `t` of the operands of word `i` is the byte at `i * (W / 8) + t` of its stream. -/
def Obligations.GroupsAreLittleEndian : Prop :=
  ∀ (w : Width) (pk : List PackedWord) (i t : Nat), t < w.bits / 8 →
    (groupA w.bits pk i).extractLsb' (8 * t) 8 = readByte (streamA pk) (i * (w.bits / 8) + t) ∧
    (groupB w.bits pk i).extractLsb' (8 * t) 8 = readByte (streamB pk) (i * (w.bits / 8) + t)

/-- R43: the operands at width `2W` are two operands at width `W`, and an operand wholly past the end is zero. -/
def Obligations.DoubleWidthGroupsConcatenate : Prop :=
  ∀ (W : Nat), W ∈ [8, 16, 32, 64] → ∀ (pk : List PackedWord) (i : Nat),
    groupA (W + W) pk i = groupA W pk (2 * i + 1) ++ groupA W pk (2 * i) ∧
    groupB (W + W) pk i = groupB W pk (2 * i + 1) ++ groupB W pk (2 * i) ∧
    (4 * pk.length ≤ i * (W / 8) → groupA W pk i = 0 ∧ groupB W pk i = 0)

/-- R39: the whole-vector view.  The streams are the bytes of two integers of `32 N` bits, the sums of the planes of the words
at their places, and logical bit `q` is the pair of their bits `q`. -/
def Obligations.WholeVectorView : Prop :=
  ∀ (pk : List PackedWord) (aInt bInt : Nat),
    aInt = ∑ k ∈ Finset.range pk.length, ((pk.getD k 0).extractLsb' 0 32).toNat * 2 ^ (32 * k) →
    bInt = ∑ k ∈ Finset.range pk.length, ((pk.getD k 0).extractLsb' 32 32).toNat * 2 ^ (32 * k) →
    (∀ a, (readByte (streamA pk) a).toNat = aInt / 2 ^ (8 * a) % 256 ∧
      (readByte (streamB pk) a).toNat = bInt / 2 ^ (8 * a) % 256) ∧
    ∀ q, q < 32 * pk.length → (aInt.testBit q, bInt.testBit q) = Claims.pairAt pk q

/-! ### RESOLVE -/

/-- R67, R68: each of RESOLVE's five instructions completes in every state, with `W` states, element `p` the one the priority
rule gives position `p` of the operand word; nothing but the outcome changes. -/
def Obligations.ResolveAnswersTheStates : Prop :=
  ∀ alt, Claims.Resolves 8 (.resolveW8 alt) ∧ Claims.Resolves 16 (.resolveW16 alt) ∧
    Claims.Resolves 32 (.resolveW32 alt) ∧ Claims.Resolves 64 (.resolveW64 alt) ∧
    Claims.Resolves 128 (.resolveW128 alt)

/-- R69: the truth table. -/
def Obligations.ResolveTruthTable : Prop :=
  resolveBit false false false = .zero ∧ resolveBit true false false = .one ∧
  resolveBit false false true = .x ∧ resolveBit true false true = .x ∧
  resolveBit false true false = .z ∧ resolveBit true true false = .z ∧
  resolveBit false true true = .z ∧ resolveBit true true true = .z

/-- R70: the state of a position depends only on its own three bits, at whatever width and in whatever word it stands. -/
def Obligations.ResolutionIsPerPosition : Prop :=
  ∀ (W W' : Nat) (f : FourStateWord W) (g : FourStateWord W') (p q : Nat), p < W → q < W' →
    f.value.getLsbD p = g.value.getLsbD q → f.highz.getLsbD p = g.highz.getLsbD q →
    f.unknown.getLsbD p = g.unknown.getLsbD q →
    (resolveWord f)[p]? = (resolveWord g)[q]?

/-- R72: the four masks tell the state of every position, are pairwise disjoint, and their or is all ones. -/
def Obligations.PlaneFormTellsTheStates : Prop :=
  ∀ (W : Nat) (f : FourStateWord W),
    (∀ p, p < W →
      (f.isZ.getLsbD p = true ↔ f.stateAt p = .z) ∧ (f.isX.getLsbD p = true ↔ f.stateAt p = .x) ∧
      (f.is1.getLsbD p = true ↔ f.stateAt p = .one) ∧ (f.is0.getLsbD p = true ↔ f.stateAt p = .zero)) ∧
    f.isZ &&& f.isX = 0 ∧ f.isZ &&& f.is1 = 0 ∧ f.isZ &&& f.is0 = 0 ∧
    f.isX &&& f.is1 = 0 ∧ f.isX &&& f.is0 = 0 ∧ f.is1 &&& f.is0 = 0 ∧
    f.isZ ||| f.isX ||| f.is1 ||| f.is0 = BitVec.allOnes W

/-! ### RENDER_BIN and RENDER_HEX -/

/-- R87, R88, R89: each of RENDER_BIN's five instructions completes in every state with its text; nothing but the outcome
changes. -/
def Obligations.RenderBinAnswersTheText : Prop :=
  ∀ alt, Claims.RendersBin 8 alt (.renderBinW8 alt) ∧ Claims.RendersBin 16 alt (.renderBinW16 alt) ∧
    Claims.RendersBin 32 alt (.renderBinW32 alt) ∧ Claims.RendersBin 64 alt (.renderBinW64 alt) ∧
    Claims.RendersBin 128 alt (.renderBinW128 alt)

/-- R90, R91, R93, R94: each of RENDER_HEX's five instructions completes in every state with its text; nothing but the outcome
changes. -/
def Obligations.RenderHexAnswersTheText : Prop :=
  ∀ alt, Claims.RendersHex 8 alt (.renderHexW8 alt) ∧ Claims.RendersHex 16 alt (.renderHexW16 alt) ∧
    Claims.RendersHex 32 alt (.renderHexW32 alt) ∧ Claims.RendersHex 64 alt (.renderHexW64 alt) ∧
    Claims.RendersHex 128 alt (.renderHexW128 alt)

/-- R88, last sentence: the binary text is that of the resolved states.  In any state, RENDER_BIN in default mode gives the
characters of the states RESOLVE gives, the last state first. -/
def Obligations.BinaryTextIsOfTheResolvedStates : Prop :=
  ∀ (s : State) (w : Width), ∃ ss : List State4,
    exec (instrOf .resolve w false) s = .next { s with outcome := .ok (.states ss) } ∧
    exec (instrOf .renderBin w false) s =
      .next { s with outcome := .ok (.text (ss.map Claims.stateGlyph).reverse) }

/-- R95: a nibble with any Z bit renders `z` or `Z` whatever its X bits, and lower case means all four positions. -/
def Obligations.HexCaseTellsWholeFromPartial : Prop :=
  ∀ vs zs xs : BitVec 4,
    (zs ≠ 0#4 → hexChar vs zs xs = 'z' ∨ hexChar vs zs xs = 'Z') ∧
    (hexChar vs zs xs = 'z' ↔ zs = 0xF#4) ∧ (hexChar vs zs xs = 'Z' ↔ (zs ≠ 0#4 ∧ zs ≠ 0xF#4)) ∧
    (hexChar vs zs xs = 'x' ↔ (zs = 0#4 ∧ xs = 0xF#4)) ∧
    (hexChar vs zs xs = 'X' ↔ (zs = 0#4 ∧ xs ≠ 0#4 ∧ xs ≠ 0xF#4))

/-- R97: the hexadecimal character of a nibble is a function of its resolved states alone. -/
def Obligations.HexCharacterIsOfTheStates : Prop :=
  ∀ (W : Nat) (f : FourStateWord W) (k : Nat), k < W / 4 →
    (Claims.countIn f k .z = 4 → f.hexCharAt k = 'z') ∧
    (0 < Claims.countIn f k .z → Claims.countIn f k .z < 4 → f.hexCharAt k = 'Z') ∧
    (Claims.countIn f k .z = 0 → Claims.countIn f k .x = 4 → f.hexCharAt k = 'x') ∧
    (Claims.countIn f k .z = 0 → 0 < Claims.countIn f k .x → Claims.countIn f k .x < 4 → f.hexCharAt k = 'X') ∧
    (Claims.countIn f k .z = 0 → Claims.countIn f k .x = 0 →
      Claims.hexGlyphs[(if f.stateAt (4 * k) = .one then 1 else 0) + (if f.stateAt (4 * k + 1) = .one then 2 else 0) +
        (if f.stateAt (4 * k + 2) = .one then 4 else 0) + (if f.stateAt (4 * k + 3) = .one then 8 else 0)]? =
        some (f.hexCharAt k))

/-- R98: how the hexadecimal character of nibble `k` and the binary characters of positions `4k + 3` down to `4k` are related,
for one operand word in one state, whatever the two modes. -/
def Obligations.BinaryAndHexTextsAgree : Prop :=
  ∀ (s : State) (w : Width) (k : Nat), k < w.bits / 4 →
    ∃ (bs hs : List Char) (c0 c1 c2 c3 h : Char),
      exec (instrOf .renderBin w false) s = .next { s with outcome := .ok (.text bs) } ∧
      exec (instrOf .renderHex w false) s = .next { s with outcome := .ok (.text hs) } ∧
      bs[w.bits - 1 - (4 * k)]? = some c0 ∧ bs[w.bits - 1 - (4 * k + 1)]? = some c1 ∧
      bs[w.bits - 1 - (4 * k + 2)]? = some c2 ∧ bs[w.bits - 1 - (4 * k + 3)]? = some c3 ∧
      hs[w.bits / 4 - 1 - k]? = some h ∧
      (h = 'z' ↔ [c0, c1, c2, c3].count 'z' = 4) ∧
      (h = 'Z' ↔ (0 < [c0, c1, c2, c3].count 'z' ∧ [c0, c1, c2, c3].count 'z' < 4)) ∧
      (h = 'x' ↔ ([c0, c1, c2, c3].count 'z' = 0 ∧ [c0, c1, c2, c3].count 'x' = 4)) ∧
      (h = 'X' ↔ ([c0, c1, c2, c3].count 'z' = 0 ∧ 0 < [c0, c1, c2, c3].count 'x' ∧
        [c0, c1, c2, c3].count 'x' < 4)) ∧
      (h ∈ Claims.hexGlyphs ↔ [c0, c1, c2, c3].count '0' + [c0, c1, c2, c3].count '1' = 4) ∧
      ([c0, c1, c2, c3].count '0' + [c0, c1, c2, c3].count '1' = 4 →
        Claims.hexGlyphs[(if c0 = '1' then 1 else 0) + (if c1 = '1' then 2 else 0) + (if c2 = '1' then 4 else 0) +
          (if c3 = '1' then 8 else 0)]? = some h)

/-- R99 (90_conflicts.md C1, C2): in a word DECODE returned, a logical bit (0, 1) renders `z` in binary and makes its nibble
`z` or `Z`; a logical bit (1, 1) renders `x`, and its nibble `x` or `X` unless a position of the nibble is Z. -/
def Obligations.DecodedBitsRender : Prop :=
  ∀ s w i f, Claims.DecodesTo s w i f → ∀ p, p < w.bits →
    (Claims.pairAt s.pk (i * w.bits + p) = (false, true) →
      f.binCharAt p = 'z' ∧ (f.hexCharAt (p / 4) = 'z' ∨ f.hexCharAt (p / 4) = 'Z')) ∧
    (Claims.pairAt s.pk (i * w.bits + p) = (true, true) →
      f.binCharAt p = 'x' ∧
      ((∀ j, j < 4 → f.stateAt (4 * (p / 4) + j) ≠ .z) → f.hexCharAt (p / 4) = 'x' ∨ f.hexCharAt (p / 4) = 'X'))

/-- R64, R100: a renderer emits no character but those of the alphabet, and each is carried as its ASCII code. -/
def Obligations.TextsKeepToTheAlphabet : Prop :=
  (∀ s t cs, step s = .next t → t.outcome = .ok (.text cs) → ∀ c ∈ cs, c ∈ Claims.alphabet) ∧
  Claims.alphabet.map charCode =
    [0x30#8, 0x31#8, 0x32#8, 0x33#8, 0x34#8, 0x35#8, 0x36#8, 0x37#8, 0x38#8, 0x39#8,
     0x61#8, 0x62#8, 0x63#8, 0x64#8, 0x65#8, 0x66#8, 0x78#8, 0x7A#8, 0x58#8, 0x5A#8]

/-- Decoding and then rendering is reading the logical bits (R76, R81, R88, R89, R99): a DECODE at a width, then a RENDER_BIN
of word `i` of its result, which the caller puts on the operand planes, gives a text whose digit `j` is that of the pair of
logical bit `i * W + (W - 1 - j)`. -/
def Obligations.DecodeThenRenderReadsTheBits : Prop :=
  ∀ (s t : State) (w : Width) (ws : List (FourStateWord w.bits)) (i : Nat) (f : FourStateWord w.bits) (u : State),
    exec (instrOf .decode w false) s = .next t → t.outcome = .ok (.decoded w ws) → ws[i]? = some f →
    u.opv = f.value.setWidth 128 → u.opz = f.highz.setWidth 128 → u.opx = f.unknown.setWidth 128 →
    ∃ cs, exec (instrOf .renderBin w false) u = .next { u with outcome := .ok (.text cs) } ∧ cs.length = w.bits ∧
      ∀ j, j < w.bits → cs[j]? = some
        (match Claims.pairAt s.pk (i * w.bits + (w.bits - 1 - j)) with
         | (false, false) => '0'
         | (true, false) => '1'
         | (false, true) => 'z'
         | (true, true) => 'x')

/-! ### The ports -/

/-- R27, R103, R107: every step keeps the outcome it holds one that stands on the output ports in a disciplined way; and after a
step that is what the output ports show. -/
def Obligations.StepKeepsThePortDiscipline : Prop :=
  ∀ s t, s.takenPorts.Disciplined → step s = .next t → t.takenPorts.Disciplined ∧ t.ports = t.takenPorts

/-- The same of the state before any operation, whose inputs and outcome are the model's choice (log entries 2 and 3). -/
def Obligations.ResetPortsAreDisciplined : Prop :=
  State.reset.takenPorts.Disciplined ∧ State.reset.ports = State.reset.takenPorts

/-- R117, R17: the outputs are a function of the present inputs.  Before a step they are already those of the outcome the step
ends with, and after it they are the same; presenting a request, or a selector, puts its outputs on them at once, whatever
the inputs and the outcome before; and they are disciplined in every state. -/
def Obligations.OutputsFollowThePresentInputs : Prop :=
  (∀ s t, step s = .next t → s.ports = OutPorts.ofOutcome t.outcome ∧ t.ports = s.ports) ∧
  (∀ (s t : State) r, (s.present r).ports = (t.present r).ports) ∧
  (∀ s r t, perform r s = .next t → (s.present r).ports = OutPorts.ofOutcome t.outcome) ∧
  (∀ (s : State) (o : OpOutcome) (nbits n : Nat),
    (({ s with outcome := o } : State).withFetchWord nbits n).ports = (s.withFetchWord nbits n).ports) ∧
  ∀ s : State, s.ports.Disciplined

/-- R27 for DECODE: in any state whose selector names it, `m` counts the words, each bit below `W` of `dv[i]`, `dz[i]`, `dx[i]` is the decoded one, and every bit at
or above `W` and every word at or past `m` reads 0. -/
def Obligations.DecodePortsCarryTheWords : Prop :=
  ∀ (s : State) (w : Width) (alt : Bool), decodeSel s.sel = .instr (instrOf .decode w alt) →
    s.ports.m = (32 * s.pk.length + w.bits - 1) / w.bits ∧
    ∀ i p,
      (s.ports.dv i).getLsbD p = (decide (i < s.ports.m) && decide (p < w.bits) &&
        ((Claims.pairAt s.pk (i * w.bits + p)).1 && !(Claims.pairAt s.pk (i * w.bits + p)).2)) ∧
      (s.ports.dz i).getLsbD p = (decide (i < s.ports.m) && decide (p < w.bits) &&
        ((Claims.pairAt s.pk (i * w.bits + p)).2 && !(Claims.pairAt s.pk (i * w.bits + p)).1)) ∧
      (s.ports.dx i).getLsbD p = (decide (i < s.ports.m) && decide (p < w.bits) &&
        ((Claims.pairAt s.pk (i * w.bits + p)).1 && (Claims.pairAt s.pk (i * w.bits + p)).2))

/-- R63 for RESOLVE: in any state whose selector names it, `st[2p+1:2p]` is the pair code of position `p`, `b` above `a`.  That
every bit at or above `2W` reads 0 is R27's and D11's choice (log entry 11, DESIGN CHOICE). -/
def Obligations.ResolvePortsCarryTheCodes : Prop :=
  ∀ (s : State) (w : Width) (alt : Bool), decodeSel s.sel = .instr (instrOf .resolve w alt) →
    (∀ p, p < w.bits → ∀ a b,
      pairState a b = resolveBit (s.opv.getLsbD p) (s.opz.getLsbD p) (s.opx.getLsbD p) →
        s.ports.st.getLsbD (2 * p) = a ∧ s.ports.st.getLsbD (2 * p + 1) = b) ∧
    ∀ q, 2 * w.bits ≤ q → s.ports.st.getLsbD q = false

/-- R27, R64 for the renderers: `len` counts the characters, `ch[j]` is the code of character `j`, and every character at or
past `len` reads 0. -/
def Obligations.RenderPortsCarryTheText : Prop :=
  ∀ (s t : State) (cs : List Char), step s = .next t → t.outcome = .ok (.text cs) →
    t.ports.len = cs.length ∧ (∀ j c, cs[j]? = some c → (t.ports.ch j).toNat = c.toNat) ∧
    ∀ j, cs.length ≤ j → t.ports.ch j = 0#8

/-- R9, R27: a request of at most `nMax` words can be put on the input ports of an instance with that many word ports, and is
read back whole; and the word ports at or past `n` are not read. -/
def Obligations.InputPortsCarryTheRequest : Prop :=
  (∀ (nMax : Nat) (r : Request), r.pk.length ≤ nMax →
    (InPorts.ofRequest nMax r).fits nMax = true ∧ (InPorts.ofRequest nMax r).request = r) ∧
  ∀ (p q : InPorts), p.sel = q.sel → p.n = q.n → p.opv = q.opv → p.opz = q.opz → p.opx = q.opx →
    (∀ k, k < p.n → p.pk[k]? = q.pk[k]?) → p.request = q.request

/-! ### The caller -/

/-- R116: the outcome of a request is the same whether it is the first operation or any later one. -/
def Obligations.FirstOperationIsLikeAnyOther : Prop :=
  ∀ r s t u, perform r State.reset = .next t → perform r s = .next u → t.outcome = u.outcome

/-- R48, R113, R17: in any sequence of requests, from any state, each operation's outcome is as if it were performed alone,
from any other state.  That the machine goes on past a fault is DEDUCED (log entry 4), and that sequences stand for
interleavings of several callers is a DESIGN CHOICE (log entry 19). -/
def Obligations.SequenceOutcomesAreIndependent : Prop :=
  ∀ (rs : List Request) (s : State), ∃ os t, performAll rs s = .next (os, t) ∧ os.length = rs.length ∧
    ∀ (k : Nat) r o, rs[k]? = some r → os[k]? = some o → ∀ u v, perform r u = .next v → v.outcome = o

/-- R108, last sentence (D10): a sequence ends in a fault exactly when some operation of it met one, and then in the first;
otherwise it ends in a next state. -/
def Obligations.SequenceKeepsItsFault : Prop :=
  (∀ rs s, safeSequence rs → ∃ t, runRequests rs s = .next t) ∧
  ∀ rs r qs s, safeSequence rs → supportedSelector r.sel = false →
    runRequests (rs ++ r :: qs) s = .fault (.unsupportedWidth (wselField r.sel))

/-- R65, R66: a program every line of which makes sense where it stands is never refused: the width and the count of a DECODE
result are told from the program alone, so every element a line names is there. -/
def Obligations.WellFormedProgramsRun : Prop :=
  ∀ ls s, programWf [] ls = true →
    (∃ t, runProgram ls s = .next t) ∨ ∃ wsel, 5 ≤ wsel.toNat ∧ runProgram ls s = .fault (.unsupportedWidth wsel)

/-- R108, last sentence (D10): a program keeps a fault it meets.  One whose lines make sense up to a line with an unsupported
width, the first such, ends in the fault with that `wsel`, whatever lines follow, also where a later line names an element
that does not exist.  That the first fault is the one kept is DEDUCED (log entry 5); that it wins over the refusal of a later
line is a DESIGN CHOICE (log entries 5 and 17). -/
def Obligations.ProgramKeepsItsFault : Prop :=
  ∀ (ls : List Line) (l : Line) (qs : List Line) (s : State),
    programWf [] (ls ++ [l]) = true → (∀ k ∈ ls, supportedSelector k.sel = true) → supportedSelector l.sel = false →
    runProgram (ls ++ l :: qs) s = .fault (.unsupportedWidth (wselField l.sel))
end

