-- ==== Sys2Proof/Laws/State.lean ====
section
/-! SUPPORT. One lemma per field per update of the state, so that no proof unfolds a record update. -/

namespace Sys2Proof.Machine

@[simp] theorem State.withOutcome_sel (s : State) (o : OpOutcome) : (s.withOutcome o).sel = s.sel := rfl
@[simp] theorem State.withOutcome_pk (s : State) (o : OpOutcome) : (s.withOutcome o).pk = s.pk := rfl
@[simp] theorem State.withOutcome_opv (s : State) (o : OpOutcome) : (s.withOutcome o).opv = s.opv := rfl
@[simp] theorem State.withOutcome_opz (s : State) (o : OpOutcome) : (s.withOutcome o).opz = s.opz := rfl
@[simp] theorem State.withOutcome_opx (s : State) (o : OpOutcome) : (s.withOutcome o).opx = s.opx := rfl
@[simp] theorem State.withOutcome_outcome (s : State) (o : OpOutcome) : (s.withOutcome o).outcome = o := rfl

@[simp] theorem State.present_sel (s : State) (r : Request) : (s.present r).sel = r.sel := rfl
@[simp] theorem State.present_pk (s : State) (r : Request) : (s.present r).pk = r.pk := rfl
@[simp] theorem State.present_opv (s : State) (r : Request) : (s.present r).opv = r.opv := rfl
@[simp] theorem State.present_opz (s : State) (r : Request) : (s.present r).opz = r.opz := rfl
@[simp] theorem State.present_opx (s : State) (r : Request) : (s.present r).opx = r.opx := rfl
@[simp] theorem State.present_outcome (s : State) (r : Request) : (s.present r).outcome = s.outcome := rfl

@[simp] theorem State.withFetchWord_sel (s : State) (n w : Nat) : (s.withFetchWord n w).sel = BitVec.ofNat 6 w := rfl
@[simp] theorem State.withFetchWord_pk (s : State) (n w : Nat) : (s.withFetchWord n w).pk = s.pk := rfl
@[simp] theorem State.withFetchWord_opv (s : State) (n w : Nat) : (s.withFetchWord n w).opv = s.opv := rfl
@[simp] theorem State.withFetchWord_opz (s : State) (n w : Nat) : (s.withFetchWord n w).opz = s.opz := rfl
@[simp] theorem State.withFetchWord_opx (s : State) (n w : Nat) : (s.withFetchWord n w).opx = s.opx := rfl
@[simp] theorem State.withFetchWord_outcome (s : State) (n w : Nat) : (s.withFetchWord n w).outcome = s.outcome := rfl

@[simp] theorem State.request_sel (s : State) : s.request.sel = s.sel := rfl
@[simp] theorem State.request_pk (s : State) : s.request.pk = s.pk := rfl
@[simp] theorem State.request_opv (s : State) : s.request.opv = s.opv := rfl
@[simp] theorem State.request_opz (s : State) : s.request.opz = s.opz := rfl
@[simp] theorem State.request_opx (s : State) : s.request.opx = s.opx := rfl

/-- Replacing the outcome twice leaves the second one. -/
@[simp] theorem State.withOutcome_withOutcome (s : State) (o p : OpOutcome) :
    (s.withOutcome o).withOutcome p = s.withOutcome p := rfl

/-- Presenting a request twice leaves the second one. -/
@[simp] theorem State.present_present (s : State) (q r : Request) : (s.present q).present r = s.present r := rfl

/-- A request presented over a replaced outcome is the request presented, with that outcome. -/
@[simp] theorem State.withOutcome_present (s : State) (o : OpOutcome) (r : Request) :
    (s.withOutcome o).present r = (s.present r).withOutcome o := rfl

/-- A state is its request and its outcome. -/
theorem State.present_request_withOutcome (s t : State) (h : s.request = t.request) :
    s.withOutcome t.outcome = t := by
  cases s; cases t; simp_all [State.request, State.withOutcome]

/-- Driving the input ports is presenting the request they carry. -/
theorem State.drive_eq (s : State) (p : InPorts) : s.drive p = s.present p.request := rfl

/-- The operand word does not depend on the outcome. -/
@[simp] theorem operandWord_withOutcome (W : Nat) (s : State) (o : OpOutcome) :
    operandWord W (s.withOutcome o) = operandWord W s := rfl

/-- The ports as taken, with a replaced outcome, are those of that outcome. -/
@[simp] theorem State.withOutcome_takenPorts (s : State) (o : OpOutcome) :
    (s.withOutcome o).takenPorts = OutPorts.ofOutcome o := rfl

end Sys2Proof.Machine
end

