-- ==== Sys2Proof/Laws/Memory.lean ====
section
/-! SUPPORT. The byte view of the packed vector: its canonical form, what a byte and a group of it read as (R36, R40, R41). -/

namespace Sys2Proof.Machine

@[simp] theorem readByte_nil (a : Nat) : readByte [] a = 0#8 := rfl

theorem readByte_cons (k : Nat) (b : Byte) (m : Memory) (a : Nat) :
    readByte ((k, b) :: m) a = if k = a then b else readByte m a := rfl

/-- A space laid from `base` has no entry below `base`. -/
theorem le_of_mem_layBytes {base : Nat} {bs : List Byte} {c : Host.Cell} (h : c ∈ layBytes base bs) : base ≤ c.1 := by
  induction bs generalizing base with
  | nil => simp [layBytes] at h
  | cons b bs ih =>
    simp only [layBytes] at h
    split at h
    · have := ih h; omega
    · rcases List.mem_cons.mp h with rfl | h'
      · exact Nat.le_refl _
      · have := ih h'; omega

/-- Laying bytes gives the canonical form. -/
theorem layBytes_wf (base : Nat) (bs : List Byte) : Memory.wf (layBytes base bs) := by
  induction bs generalizing base with
  | nil => exact ⟨List.Pairwise.nil, fun c hc => absurd hc List.not_mem_nil⟩
  | cons b bs ih =>
    simp only [layBytes]
    split
    · exact ih _
    · rename_i hb
      refine ⟨List.pairwise_cons.mpr ⟨fun c hc => ?_, (ih _).1⟩, fun c hc => ?_⟩
      · have := le_of_mem_layBytes hc; simp only; omega
      · rcases List.mem_cons.mp hc with rfl | h'
        · exact hb
        · exact (ih _).2 c h'

/-- Both streams of any packed vector are in canonical form. -/
theorem streamA_wf (pk : List PackedWord) : Memory.wf (streamA pk) := layBytes_wf _ _

theorem streamB_wf (pk : List PackedWord) : Memory.wf (streamB pk) := layBytes_wf _ _

/-- Before any operation both streams are empty, and so in canonical form. -/
theorem reset_streams_wf : Memory.wf (streamA State.reset.pk) ∧ Memory.wf (streamB State.reset.pk) :=
  ⟨streamA_wf _, streamB_wf _⟩

/-- Below its base, a laid space reads zero. -/
theorem readByte_layBytes_lt {base a : Nat} (bs : List Byte) (h : a < base) : readByte (layBytes base bs) a = 0#8 := by
  induction bs generalizing base with
  | nil => rfl
  | cons b bs ih =>
    simp only [layBytes]
    split
    · exact ih (by omega)
    · rw [readByte_cons, if_neg (by omega)]; exact ih (by omega)

/-- A laid space reads each byte at its place, and zero past the last. -/
theorem readByte_layBytes (base k : Nat) (bs : List Byte) :
    readByte (layBytes base bs) (base + k) = bs.getD k 0#8 := by
  induction bs generalizing base k with
  | nil => simp [layBytes]
  | cons b bs ih =>
    simp only [layBytes]
    cases k with
    | zero =>
      split
      · rename_i hb; rw [readByte_layBytes_lt _ (by omega)]; simpa [absentByte] using hb.symm
      · simp [readByte_cons]
    | succ k =>
      have e : base + (k + 1) = base + 1 + k := by omega
      split
      · rw [e, ih]; simp
      · rw [readByte_cons, if_neg (by omega), e, ih]; simp

@[simp] theorem length_planeBytes (p : BitVec 32) : (planeBytes p).length = 4 := rfl

/-- Byte `j` of a plane (R36). -/
theorem planeBytes_getD (p : BitVec 32) (j : Nat) : (planeBytes p).getD j 0#8 = p.extractLsb' (8 * j) 8 := by
  match j with
  | 0 => rfl
  | 1 => rfl
  | 2 => rfl
  | 3 => rfl
  | j + 4 =>
    have h : (planeBytes p).getD (j + 4) 0#8 = 0#8 := by simp [List.getD, planeBytes]
    rw [h]
    ext i hi
    simp [show 32 ≤ 8 * (j + 4) + i by omega]

@[simp] theorem length_streamBytesA (pk : List PackedWord) : (streamBytesA pk).length = 4 * pk.length := by
  induction pk with
  | nil => rfl
  | cons w ws ih => simp only [streamBytesA, List.flatMap_cons, List.length_append, length_planeBytes, List.length_cons] at *; omega

@[simp] theorem length_streamBytesB (pk : List PackedWord) : (streamBytesB pk).length = 4 * pk.length := by
  induction pk with
  | nil => rfl
  | cons w ws ih => simp only [streamBytesB, List.flatMap_cons, List.length_append, length_planeBytes, List.length_cons] at *; omega

/-- Four bytes a word: a byte of a concatenation of planes is a byte of one word's plane. -/
theorem flatMap_planeBytes_getD (f : PackedWord → BitVec 32) (h0 : f 0#64 = 0#32) (pk : List PackedWord) (a : Nat) :
    (pk.flatMap (fun w => planeBytes (f w))).getD a 0#8 = (f (pk.getD (a / 4) 0#64)).extractLsb' (8 * (a % 4)) 8 := by
  induction pk generalizing a with
  | nil => simp [h0]
  | cons w ws ih =>
    rw [List.flatMap_cons]
    by_cases h : a < 4
    · rw [List.getD_append _ _ _ _ (by simpa using h), planeBytes_getD]
      rw [show a / 4 = 0 by omega, show a % 4 = a by omega]
      rfl
    · rw [List.getD_append_right _ _ _ _ (by simpa using h), ih]
      obtain ⟨b, rfl⟩ : ∃ b, a = b + 4 := ⟨a - 4, by omega⟩
      simp only [length_planeBytes]
      rw [show b + 4 - 4 = b by omega, show (b + 4) / 4 = b / 4 + 1 by omega, show (b + 4) % 4 = b % 4 by omega]
      rfl

/-- A bit of a byte of stream A is a bit of the a-planes (R36, R39). -/
theorem readByte_streamA_getLsbD (pk : List PackedWord) (a j : Nat) (hj : j < 8) :
    (readByte (streamA pk) a).getLsbD j = aBit pk (8 * a + j) := by
  have h := readByte_layBytes 0 a (streamBytesA pk)
  rw [Nat.zero_add] at h
  rw [streamA, h, streamBytesA, flatMap_planeBytes_getD aPlane rfl, aBit,
    show (8 * a + j) / 32 = a / 4 by omega, show (8 * a + j) % 32 = 8 * (a % 4) + j by omega]
  have h32 : 8 * (a % 4) + j < 32 := by omega
  simp [aPlane, hj, h32]

/-- A bit of a byte of stream B is a bit of the b-planes (R36, R39). -/
theorem readByte_streamB_getLsbD (pk : List PackedWord) (a j : Nat) (hj : j < 8) :
    (readByte (streamB pk) a).getLsbD j = bBit pk (8 * a + j) := by
  have h := readByte_layBytes 0 a (streamBytesB pk)
  rw [Nat.zero_add] at h
  rw [streamB, h, streamBytesB, flatMap_planeBytes_getD bPlane rfl, bBit,
    show (8 * a + j) / 32 = a / 4 by omega, show (8 * a + j) % 32 = 8 * (a % 4) + j by omega]
  have h32 : 8 * (a % 4) + j < 32 := by omega
  simp [bPlane, hj, h32]

/-- A bit of a multi-byte read is a bit of one byte of it (R12). -/
theorem memRead_getLsbD (m : Memory) (addr n p : Nat) :
    (memRead m addr n).getLsbD p = (decide (p < 8 * n) && (readByte m (addr + p / 8)).getLsbD (p % 8)) := by
  induction n with
  | zero => simp [memRead]
  | succ n ih =>
    simp only [memRead, BitVec.getLsbD_setWidth, BitVec.getLsbD_append, ih]
    by_cases h : p < 8 * n
    · simp [h]
    · by_cases h' : p < 8 * (n + 1)
      · have e1 : p / 8 = n := by omega
        have e2 : p - 8 * n = p % 8 := by omega
        simp [h, h', e1, e2]
      · simp [h, h']

/-- Bit `p` of `A_i` is bit `i * W + p` of the a-planes (R39, R40, R76). -/
theorem groupA_getLsbD {W : Nat} (hW : 8 ∣ W) (pk : List PackedWord) (i p : Nat) :
    (groupA W pk i).getLsbD p = (decide (p < W) && aBit pk (i * W + p)) := by
  obtain ⟨n, rfl⟩ := hW
  rw [groupA, BitVec.getLsbD_setWidth, memRead_getLsbD, show 8 * n / 8 = n by omega,
    readByte_streamA_getLsbD _ _ _ (by omega)]
  have e : 8 * (i * n + p / 8) + p % 8 = i * (8 * n) + p := by
    have : 8 * (i * n) = i * (8 * n) := by ring
    omega
  rw [e]
  by_cases h : p < 8 * n <;> simp [h]

/-- Bit `p` of `B_i` is bit `i * W + p` of the b-planes (R39, R40, R76). -/
theorem groupB_getLsbD {W : Nat} (hW : 8 ∣ W) (pk : List PackedWord) (i p : Nat) :
    (groupB W pk i).getLsbD p = (decide (p < W) && bBit pk (i * W + p)) := by
  obtain ⟨n, rfl⟩ := hW
  rw [groupB, BitVec.getLsbD_setWidth, memRead_getLsbD, show 8 * n / 8 = n by omega,
    readByte_streamB_getLsbD _ _ _ (by omega)]
  have e : 8 * (i * n + p / 8) + p % 8 = i * (8 * n) + p := by
    have : 8 * (i * n) = i * (8 * n) := by ring
    omega
  rw [e]
  by_cases h : p < 8 * n <;> simp [h]

/-- Past the end of the vector both planes are zero (R41, R77). -/
theorem aBit_eq_false {pk : List PackedWord} {q : Nat} (h : 32 * pk.length ≤ q) : aBit pk q = false := by
  rw [aBit, List.getD_eq_default _ _ (by omega)]; simp

theorem bBit_eq_false {pk : List PackedWord} {q : Nat} (h : 32 * pk.length ≤ q) : bBit pk q = false := by
  rw [bBit, List.getD_eq_default _ _ (by omega)]; simp

/-- Every width of the set is a whole number of bytes. -/
theorem eight_dvd_bits (w : Width) : 8 ∣ w.bits := by cases w <;> decide

end Sys2Proof.Machine
end

