-- ==== Sys2Proof/Laws/PackedDecode.lean ====
section
/-! SUPPORT. What DECODE returns: how many words, and every bit of each (R74 to R77). -/

namespace Sys2Proof.Machine

/-- Bit `p` of the value plane of word `i` (R75, R76). -/
theorem decodeWord_value {W : Nat} (hW : 8 ∣ W) (pk : List PackedWord) (i p : Nat) :
    (decodeWord W pk i).value.getLsbD p =
      (decide (p < W) && (aBit pk (i * W + p) && !bBit pk (i * W + p))) := by
  simp only [decodeWord, combine, BitVec.getLsbD_and, BitVec.getLsbD_not, groupA_getLsbD hW, groupB_getLsbD hW]
  by_cases h : p < W <;> simp [h]

/-- Bit `p` of the highz plane of word `i` (R75, R76). -/
theorem decodeWord_highz {W : Nat} (hW : 8 ∣ W) (pk : List PackedWord) (i p : Nat) :
    (decodeWord W pk i).highz.getLsbD p =
      (decide (p < W) && (bBit pk (i * W + p) && !aBit pk (i * W + p))) := by
  simp only [decodeWord, combine, BitVec.getLsbD_and, BitVec.getLsbD_not, groupA_getLsbD hW, groupB_getLsbD hW]
  by_cases h : p < W <;> simp [h]

/-- Bit `p` of the unknown plane of word `i` (R75, R76). -/
theorem decodeWord_unknown {W : Nat} (hW : 8 ∣ W) (pk : List PackedWord) (i p : Nat) :
    (decodeWord W pk i).unknown.getLsbD p =
      (decide (p < W) && (aBit pk (i * W + p) && bBit pk (i * W + p))) := by
  simp only [decodeWord, combine, BitVec.getLsbD_and, groupA_getLsbD hW, groupB_getLsbD hW]
  by_cases h : p < W <;> simp [h]

@[simp] theorem length_decodeWords (W : Nat) (pk : List PackedWord) :
    (decodeWords W pk).length = decodeCount W pk.length := by simp [decodeWords]

theorem decodeWords_getElem? {W : Nat} {pk : List PackedWord} {i : Nat} (h : i < decodeCount W pk.length) :
    (decodeWords W pk)[i]? = some (decodeWord W pk i) := by simp [decodeWords, h]

end Sys2Proof.Machine
end

