-- ==== Sys2Proof/Laws/PerInstr.lean ====
section
/-! SUPPORT. The instruction-by-instruction laws of the selector: what each instruction's selector holds in its three fields
(R57), and that the instruction is well-formed. -/

/-- The selector of an instruction holds its operation code, its `alt` bit and its width code (R57 to R60), names a width, and
the instruction is well-formed. -/
def Sys2Proof.Laws.Selector.Statement (i : Sys2Proof.Instr) : Prop :=
  Sys2Proof.opField (Sys2Proof.encode i) = Sys2Proof.opCode i.op ∧
  Sys2Proof.altField (Sys2Proof.encode i) = i.alt ∧
  Sys2Proof.wselField (Sys2Proof.encode i) = Sys2Proof.widthCode i.width ∧
  Sys2Proof.instrOf i.op i.width i.alt = i ∧
  i.wellFormed = true

theorem Sys2Proof.Laws.Selector.decodeW8 (alt : Bool) :
    Sys2Proof.Laws.Selector.Statement (.decodeW8 alt) := by
  cases alt <;> exact ⟨rfl, rfl, rfl, rfl, rfl⟩

theorem Sys2Proof.Laws.Selector.decodeW16 (alt : Bool) :
    Sys2Proof.Laws.Selector.Statement (.decodeW16 alt) := by
  cases alt <;> exact ⟨rfl, rfl, rfl, rfl, rfl⟩

theorem Sys2Proof.Laws.Selector.decodeW32 (alt : Bool) :
    Sys2Proof.Laws.Selector.Statement (.decodeW32 alt) := by
  cases alt <;> exact ⟨rfl, rfl, rfl, rfl, rfl⟩

theorem Sys2Proof.Laws.Selector.decodeW64 (alt : Bool) :
    Sys2Proof.Laws.Selector.Statement (.decodeW64 alt) := by
  cases alt <;> exact ⟨rfl, rfl, rfl, rfl, rfl⟩

theorem Sys2Proof.Laws.Selector.decodeW128 (alt : Bool) :
    Sys2Proof.Laws.Selector.Statement (.decodeW128 alt) := by
  cases alt <;> exact ⟨rfl, rfl, rfl, rfl, rfl⟩

theorem Sys2Proof.Laws.Selector.resolveW8 (alt : Bool) :
    Sys2Proof.Laws.Selector.Statement (.resolveW8 alt) := by
  cases alt <;> exact ⟨rfl, rfl, rfl, rfl, rfl⟩

theorem Sys2Proof.Laws.Selector.resolveW16 (alt : Bool) :
    Sys2Proof.Laws.Selector.Statement (.resolveW16 alt) := by
  cases alt <;> exact ⟨rfl, rfl, rfl, rfl, rfl⟩

theorem Sys2Proof.Laws.Selector.resolveW32 (alt : Bool) :
    Sys2Proof.Laws.Selector.Statement (.resolveW32 alt) := by
  cases alt <;> exact ⟨rfl, rfl, rfl, rfl, rfl⟩

theorem Sys2Proof.Laws.Selector.resolveW64 (alt : Bool) :
    Sys2Proof.Laws.Selector.Statement (.resolveW64 alt) := by
  cases alt <;> exact ⟨rfl, rfl, rfl, rfl, rfl⟩

theorem Sys2Proof.Laws.Selector.resolveW128 (alt : Bool) :
    Sys2Proof.Laws.Selector.Statement (.resolveW128 alt) := by
  cases alt <;> exact ⟨rfl, rfl, rfl, rfl, rfl⟩

theorem Sys2Proof.Laws.Selector.renderBinW8 (alt : Bool) :
    Sys2Proof.Laws.Selector.Statement (.renderBinW8 alt) := by
  cases alt <;> exact ⟨rfl, rfl, rfl, rfl, rfl⟩

theorem Sys2Proof.Laws.Selector.renderBinW16 (alt : Bool) :
    Sys2Proof.Laws.Selector.Statement (.renderBinW16 alt) := by
  cases alt <;> exact ⟨rfl, rfl, rfl, rfl, rfl⟩

theorem Sys2Proof.Laws.Selector.renderBinW32 (alt : Bool) :
    Sys2Proof.Laws.Selector.Statement (.renderBinW32 alt) := by
  cases alt <;> exact ⟨rfl, rfl, rfl, rfl, rfl⟩

theorem Sys2Proof.Laws.Selector.renderBinW64 (alt : Bool) :
    Sys2Proof.Laws.Selector.Statement (.renderBinW64 alt) := by
  cases alt <;> exact ⟨rfl, rfl, rfl, rfl, rfl⟩

theorem Sys2Proof.Laws.Selector.renderBinW128 (alt : Bool) :
    Sys2Proof.Laws.Selector.Statement (.renderBinW128 alt) := by
  cases alt <;> exact ⟨rfl, rfl, rfl, rfl, rfl⟩

theorem Sys2Proof.Laws.Selector.renderHexW8 (alt : Bool) :
    Sys2Proof.Laws.Selector.Statement (.renderHexW8 alt) := by
  cases alt <;> exact ⟨rfl, rfl, rfl, rfl, rfl⟩

theorem Sys2Proof.Laws.Selector.renderHexW16 (alt : Bool) :
    Sys2Proof.Laws.Selector.Statement (.renderHexW16 alt) := by
  cases alt <;> exact ⟨rfl, rfl, rfl, rfl, rfl⟩

theorem Sys2Proof.Laws.Selector.renderHexW32 (alt : Bool) :
    Sys2Proof.Laws.Selector.Statement (.renderHexW32 alt) := by
  cases alt <;> exact ⟨rfl, rfl, rfl, rfl, rfl⟩

theorem Sys2Proof.Laws.Selector.renderHexW64 (alt : Bool) :
    Sys2Proof.Laws.Selector.Statement (.renderHexW64 alt) := by
  cases alt <;> exact ⟨rfl, rfl, rfl, rfl, rfl⟩

theorem Sys2Proof.Laws.Selector.renderHexW128 (alt : Bool) :
    Sys2Proof.Laws.Selector.Statement (.renderHexW128 alt) := by
  cases alt <;> exact ⟨rfl, rfl, rfl, rfl, rfl⟩
end

