-- ==== Sys2Proof/Laws/Render.lean ====
section
/-! SUPPORT. What the resolver and the renderers return: how long it is, and every element of it (R67, R89, R94). -/

namespace Sys2Proof.Machine

@[simp] theorem length_resolveWord {W : Nat} (f : FourStateWord W) : (resolveWord f).length = W := by
  simp [resolveWord]

theorem resolveWord_getElem? {W : Nat} (f : FourStateWord W) {p : Nat} (h : p < W) :
    (resolveWord f)[p]? = some (f.stateAt p) := by simp [resolveWord, h]

@[simp] theorem length_binDigits {W : Nat} (f : FourStateWord W) : (binDigits f).length = W := by simp [binDigits]

theorem binDigits_getElem? {W : Nat} (f : FourStateWord W) {j : Nat} (h : j < W) :
    (binDigits f)[j]? = some (f.binCharAt (W - 1 - j)) := by
  simp [binDigits, h]

@[simp] theorem length_hexDigits {W : Nat} (f : FourStateWord W) : (hexDigits f).length = W / 4 := by
  simp [hexDigits]

theorem hexDigits_getElem? {W : Nat} (f : FourStateWord W) {j : Nat} (h : j < W / 4) :
    (hexDigits f)[j]? = some (f.hexCharAt (W / 4 - 1 - j)) := by
  simp [hexDigits, h]

/-- The binary string: the two characters of the alternate mode, then the digits (R87). -/
theorem renderBin_eq {W : Nat} (alt : Bool) (f : FourStateWord W) :
    renderBin alt f = (if alt then ['0', 'b'] else []) ++ binDigits f := rfl

/-- The hexadecimal string: the two characters of the alternate mode, then the digits (R90). -/
theorem renderHex_eq {W : Nat} (alt : Bool) (f : FourStateWord W) :
    renderHex alt f = (if alt then ['0', 'x'] else []) ++ hexDigits f := rfl

/-- A bit of a slice is a bit of the plane (R93). -/
theorem nibble_getLsbD {W : Nat} (plane : BitVec W) (k j : Nat) :
    (nibble plane k).getLsbD j = (decide (j < 4) && plane.getLsbD (4 * k + j)) := by
  simp [nibble]

/-- A slice, bit by bit (R93). -/
theorem nibble_eq_bits {W : Nat} (plane : BitVec W) (k : Nat) :
    nibble plane k = BitVec.ofBoolListLE
      [plane.getLsbD (4 * k), plane.getLsbD (4 * k + 1), plane.getLsbD (4 * k + 2), plane.getLsbD (4 * k + 3)] := by
  apply BitVec.eq_of_getLsbD_eq
  intro p hp
  rw [nibble_getLsbD]
  match p, hp with
  | 0, _ => simp [BitVec.ofBoolListLE]
  | 1, _ => simp [BitVec.ofBoolListLE]
  | 2, _ => simp [BitVec.ofBoolListLE]
  | 3, _ => simp [BitVec.ofBoolListLE]

/-- Every width of the set is at most 128 positions and a whole number of nibbles. -/
theorem bits_le (w : Width) : w.bits ≤ 128 := by cases w <;> decide

theorem bits_eq_nibbles (w : Width) : w.bits = 4 * (w.bits / 4) := by cases w <;> rfl

end Sys2Proof.Machine
end

