-- ==== Sys2Proof/Laws/Ports.lean ====
section
/-! SUPPORT. What stands on the output ports for each outcome (R27, R63, R64, R107). -/

namespace Sys2Proof.Machine

/-- A bit of `st` is a bit of one position's code (R63), as long as the states fit the port. -/
theorem packStates_getLsbD (ss : List State4) (h : ss.length ≤ 128) (q : Nat) :
    (packStates ss).getLsbD q = (ss[q / 2]?.map (fun s => (stateCode s).getLsbD (q % 2))).getD false := by
  induction ss generalizing q with
  | nil => simp [packStates]
  | cons a as ih =>
    simp only [List.length_cons] at h
    simp only [packStates, BitVec.getLsbD_or, BitVec.getLsbD_shiftLeft, BitVec.getLsbD_setWidth]
    by_cases hq : q < 2
    · simp [hq, show q / 2 = 0 by omega, show q % 2 = q by omega, show q < 256 by omega]
    · obtain ⟨r, rfl⟩ : ∃ r, q = r + 2 := ⟨q - 2, by omega⟩
      rw [show r + 2 - 2 = r by omega, ih (by omega), show (r + 2) / 2 = r / 2 + 1 by omega,
        show (r + 2) % 2 = r % 2 by omega]
      by_cases hr : r + 2 < 256
      · simp [hr]
      · have hn : as[r / 2]? = none := List.getElem?_eq_none (by omega)
        simp [hr, hn]

@[simp] theorem ofOutcome_decoded_m (w : Width) (ws : List (FourStateWord w.bits)) :
    (OutPorts.ofOutcome (.ok (.decoded w ws))).m = ws.length := rfl

@[simp] theorem ofOutcome_states_st (ss : List State4) : (OutPorts.ofOutcome (.ok (.states ss))).st = packStates ss := rfl

@[simp] theorem ofOutcome_text_len (cs : List Char) : (OutPorts.ofOutcome (.ok (.text cs))).len = cs.length := rfl

@[simp] theorem ofOutcome_fault_err (wsel : BitVec 3) : (OutPorts.ofOutcome (.unsupportedWidth wsel)).err = true := rfl

@[simp] theorem ofOutcome_ok_err (r : Result) : (OutPorts.ofOutcome (.ok r)).err = false := by cases r <;> rfl

/-- `dv[i]` of a DECODE result is the value plane of word `i`, zero-extended, and 0 past the last word. -/
theorem ofOutcome_decoded_dv (w : Width) (ws : List (FourStateWord w.bits)) (i : Nat) :
    (OutPorts.ofOutcome (.ok (.decoded w ws))).dv i = (ws[i]?.map (fun f => f.value.setWidth 128)).getD 0#128 := by
  simp [OutPorts.ofOutcome, OutPorts.dv, List.getD_eq_getElem?_getD]

/-- `dz[i]` of a DECODE result. -/
theorem ofOutcome_decoded_dz (w : Width) (ws : List (FourStateWord w.bits)) (i : Nat) :
    (OutPorts.ofOutcome (.ok (.decoded w ws))).dz i = (ws[i]?.map (fun f => f.highz.setWidth 128)).getD 0#128 := by
  simp [OutPorts.ofOutcome, OutPorts.dz, List.getD_eq_getElem?_getD]

/-- `dx[i]` of a DECODE result. -/
theorem ofOutcome_decoded_dx (w : Width) (ws : List (FourStateWord w.bits)) (i : Nat) :
    (OutPorts.ofOutcome (.ok (.decoded w ws))).dx i = (ws[i]?.map (fun f => f.unknown.setWidth 128)).getD 0#128 := by
  simp [OutPorts.ofOutcome, OutPorts.dx, List.getD_eq_getElem?_getD]

/-- `ch[j]` of a text is the code of character `j`, and 0 past the last. -/
theorem ofOutcome_text_ch (cs : List Char) (j : Nat) :
    (OutPorts.ofOutcome (.ok (.text cs))).ch j = (cs[j]?.map charCode).getD 0#8 := by
  simp [OutPorts.ofOutcome, OutPorts.ch, List.getD_eq_getElem?_getD]

end Sys2Proof.Machine
end

