-- ==== Sys2Proof/Laws/Step.lean ====
section
/-! SUPPORT. Once and for all what each shared operation, `exec`, `step` and a performed request can do. -/

namespace Sys2Proof.Machine

theorem finish_eq (s : State) (r : Result) : finish s r = .next (s.withOutcome (.ok r)) := rfl

theorem takeUnsupportedWidth_eq (wsel : BitVec 3) (s : State) :
    takeUnsupportedWidth wsel s = .next (s.withOutcome (.unsupportedWidth wsel)) := rfl

/-- The result of an instruction, by its operation and width. -/
def resultOf (o : Op) (w : Width) (alt : Bool) (s : State) : Result :=
  match o with
  | .decode => .decoded w (decodeWords w.bits s.pk)
  | .resolve => .states (resolveWord (operandWord w.bits s))
  | .renderBin => .text (renderBin alt (operandWord w.bits s))
  | .renderHex => .text (renderHex alt (operandWord w.bits s))

/-- Every instruction ends with its result. -/
theorem exec_eq (i : Instr) (s : State) : exec i s = finish s (resultOf i.op i.width i.alt s) := by
  cases i <;> rfl

/-- The outcome of one step, by the selector's fields (R62). -/
def stepOutcome (s : State) : OpOutcome :=
  match widthOfCode (wselField s.sel) with
  | none => .unsupportedWidth (wselField s.sel)
  | some w => .ok (resultOf (opOfCode (opField s.sel)) w (altField s.sel) s)

/-- The projections undo `instrOf`. -/
@[simp] theorem instrOf_op (o : Op) (w : Width) (alt : Bool) : (instrOf o w alt).op = o := by
  cases o <;> cases w <;> rfl

@[simp] theorem instrOf_width (o : Op) (w : Width) (alt : Bool) : (instrOf o w alt).width = w := by
  cases o <;> cases w <;> rfl

@[simp] theorem instrOf_alt (o : Op) (w : Width) (alt : Bool) : (instrOf o w alt).alt = alt := by
  cases o <;> cases w <;> rfl

/-- One step, whole: it always answers a next state, with the outcome of the selector's operation. -/
theorem step_eq (s : State) : step s = .next (s.withOutcome (stepOutcome s)) := by
  unfold step decodeSel stepOutcome
  cases widthOfCode (wselField s.sel) with
  | none => rfl
  | some w => simp [exec_eq, finish_eq]

/-- The outcome of a step does not depend on the outcome before it. -/
@[simp] theorem stepOutcome_withOutcome (s : State) (o : OpOutcome) :
    stepOutcome (s.withOutcome o) = stepOutcome s := rfl

/-- A selector that decodes to an instruction: the outcome is that instruction's result. -/
theorem stepOutcome_of_decodeSel {s : State} {o : Op} {w : Width} {alt : Bool}
    (h : decodeSel s.sel = .instr (instrOf o w alt)) : stepOutcome s = .ok (resultOf o w alt s) := by
  have hs := step_eq s
  simp only [step, h, exec_eq, finish_eq, Host.Outcome.next.injEq] at hs
  rw [← show (s.withOutcome (stepOutcome s)).outcome = stepOutcome s from rfl, ← hs]
  cases o <;> cases w <;> rfl

/-- The output ports, whole: those of the outcome of the operation presented (R117). -/
theorem State.ports_eq (s : State) : s.ports = OutPorts.ofOutcome (stepOutcome s) := by
  rw [State.ports, step_eq]; rfl

/-- The output ports do not depend on the outcome taken last. -/
@[simp] theorem State.withOutcome_ports (s : State) (o : OpOutcome) : (s.withOutcome o).ports = s.ports := by
  simp only [State.ports_eq, stepOutcome_withOutcome]

/-- A step that ends in a DECODE result: its words are those of the packed vector. -/
theorem step_decoded {s t : State} {w : Width} {ws : List (FourStateWord w.bits)} (h : step s = .next t)
    (ho : t.outcome = .ok (.decoded w ws)) : ws = decodeWords w.bits s.pk := by
  rw [step_eq] at h
  cases h
  rw [State.withOutcome_outcome, stepOutcome] at ho
  cases hw : widthOfCode (wselField s.sel) with
  | none => simp [hw] at ho
  | some w' =>
    cases hop : opOfCode (opField s.sel) <;> simp only [hw, hop, resultOf] at ho <;> cases ho
    rfl

/-- A step that ends in a text: it is one of the two renderers' text of the operand word, at some width and mode. -/
theorem step_text {s t : State} {cs : List Char} (h : step s = .next t) (ho : t.outcome = .ok (.text cs)) :
    ∃ (w : Width) (alt : Bool), cs = renderBin alt (operandWord w.bits s) ∨ cs = renderHex alt (operandWord w.bits s) := by
  rw [step_eq] at h
  cases h
  rw [State.withOutcome_outcome, stepOutcome] at ho
  cases hw : widthOfCode (wselField s.sel) with
  | none => simp [hw] at ho
  | some w =>
    cases hop : opOfCode (opField s.sel) <;> simp only [hw, hop, resultOf] at ho <;> cases ho
    · exact ⟨w, _, .inl rfl⟩
    · exact ⟨w, _, .inr rfl⟩

/-- A request performed, whole. -/
theorem perform_eq (r : Request) (s : State) :
    perform r s = .next ((s.present r).withOutcome (stepOutcome (s.present r))) := step_eq _

/-- The outcome of a request does not depend on the state it is presented in. -/
theorem stepOutcome_present (r : Request) (s t : State) : stepOutcome (s.present r) = stepOutcome (t.present r) := rfl

end Sys2Proof.Machine
end

