-- ==== Sys2Proof/Tests/Slice0.lean ====
section
/-! SUPPORT. Tests against the worked examples of spec/95_test_vectors.md and the encodings of spec/30_encoding.md, the smoke test
of the well-formedness checks, and one witness for every statement that has hypotheses. -/

namespace Sys2Proof.Tests

open Sys2Proof.Machine

/-- A state with the given inputs. -/
def st (sel : BitVec 6) (pk : List PackedWord) (v z x : BitVec 128) : State :=
  { State.reset with sel := sel, pk := pk, opv := v, opz := z, opx := x }

/-- The outcome of a step. -/
def after (s : State) : Option OpOutcome :=
  match step s with
  | .next t => some t.outcome
  | .fault _ => none
  | .refused _ => none

/-- The input `L` of the literal scenarios (95_test_vectors.md section 1). -/
def inputL : List PackedWord := [0x0000000001234567#64, 0xffffffff89abcdef#64]

/-- The operand of RV-1, RR-8 and P5. -/
def overlap (sel : BitVec 6) : State := st sel [] 0x0F#128 0x30#128 0x18#128

/-- Words of a width from triples. -/
def wordsOf (W : Nat) (l : List (Nat × Nat × Nat)) : List (FourStateWord W) :=
  l.map (fun p => ⟨BitVec.ofNat W p.1, BitVec.ofNat W p.2.1, BitVec.ofNat W p.2.2⟩)

/-! ### Decoding, word by word from the encodings of R57 to R59 -/

theorem test_decode_selectors :
    [0b000000#6, 0b000001#6, 0b000010#6, 0b000011#6, 0b000100#6, 0b001000#6, 0b001001#6, 0b001010#6, 0b001011#6,
      0b001100#6].map decodeSel =
    [.instr (.decodeW8 false), .instr (.decodeW16 false), .instr (.decodeW32 false), .instr (.decodeW64 false),
      .instr (.decodeW128 false), .instr (.decodeW8 true), .instr (.decodeW16 true), .instr (.decodeW32 true),
      .instr (.decodeW64 true), .instr (.decodeW128 true)] := by decide

theorem test_resolve_selectors :
    [0b010000#6, 0b010001#6, 0b010010#6, 0b010011#6, 0b010100#6, 0b011000#6, 0b011001#6, 0b011010#6, 0b011011#6,
      0b011100#6].map decodeSel =
    [.instr (.resolveW8 false), .instr (.resolveW16 false), .instr (.resolveW32 false), .instr (.resolveW64 false),
      .instr (.resolveW128 false), .instr (.resolveW8 true), .instr (.resolveW16 true), .instr (.resolveW32 true),
      .instr (.resolveW64 true), .instr (.resolveW128 true)] := by decide

theorem test_render_bin_selectors :
    [0b100000#6, 0b100001#6, 0b100010#6, 0b100011#6, 0b100100#6, 0b101000#6, 0b101001#6, 0b101010#6, 0b101011#6,
      0b101100#6].map decodeSel =
    [.instr (.renderBinW8 false), .instr (.renderBinW16 false), .instr (.renderBinW32 false),
      .instr (.renderBinW64 false), .instr (.renderBinW128 false), .instr (.renderBinW8 true),
      .instr (.renderBinW16 true), .instr (.renderBinW32 true), .instr (.renderBinW64 true),
      .instr (.renderBinW128 true)] := by decide

theorem test_render_hex_selectors :
    [0b110000#6, 0b110001#6, 0b110010#6, 0b110011#6, 0b110100#6, 0b111000#6, 0b111001#6, 0b111010#6, 0b111011#6,
      0b111100#6].map decodeSel =
    [.instr (.renderHexW8 false), .instr (.renderHexW16 false), .instr (.renderHexW32 false),
      .instr (.renderHexW64 false), .instr (.renderHexW128 false), .instr (.renderHexW8 true),
      .instr (.renderHexW16 true), .instr (.renderHexW32 true), .instr (.renderHexW64 true),
      .instr (.renderHexW128 true)] := by decide

/-- SEL-1: the reserved selectors, of every operation and both modes. -/
theorem test_reserved_selectors :
    [0x05#6, 0x0D#6, 0x16#6, 0x1E#6, 0x27#6, 0x2F#6, 0x35#6, 0x3F#6].map decodeSel =
    [.unsupportedWidth 0b101#3, .unsupportedWidth 0b101#3, .unsupportedWidth 0b110#3, .unsupportedWidth 0b110#3,
      .unsupportedWidth 0b111#3, .unsupportedWidth 0b111#3, .unsupportedWidth 0b101#3, .unsupportedWidth 0b111#3] := by
  decide

/-- `RENDER_HEX.W128` is 0x34 and runs as the first operation; 0x05 is reserved; 0x40 is no selector. -/
theorem test_table_word :
    decodeTableWord 8 0x34 = some (.renderHexW128 false) ∧ decodeTableWord 8 0x05 = none ∧
    decodeTableWord 8 0x40 = none ∧
    after (State.reset.withFetchWord 8 0x34) = some (.ok (.text (List.replicate 32 '0'))) := by decide

/-! ### RESOLVE (95_test_vectors.md 2.2) -/

/-- RV-1, RV-3, RV-5: positions 0 to 7. -/
theorem test_resolve_w8 :
    after (overlap 0x10#6) = some (.ok (.states [.one, .one, .one, .x, .z, .z, .zero, .zero])) ∧
    after (st 0x10#6 [] 0xFF#128 0xFF#128 0xFF#128) = some (.ok (.states [.z, .z, .z, .z, .z, .z, .z, .z])) ∧
    after (st 0x18#6 [] 0xFF#128 0x00#128 0x0F#128) =
      some (.ok (.states [.x, .x, .x, .x, .one, .one, .one, .one])) := by decide

/-- RV-8, written from position 31 down to 0. -/
theorem test_resolve_w32 :
    after (st 0x12#6 [] 0#128 0x76543210#128 0x89abcdef#128) =
      some (.ok (.states [.x, .z, .z, .z, .x, .z, .z, .x, .x, .z, .x, .z, .x, .z, .x, .x, .x, .x, .z, .z, .x, .x, .z, .x,
        .x, .x, .x, .z, .x, .x, .x, .x].reverse)) := by decide

/-- The port form of RV-1. -/
theorem test_resolve_port :
    (OutPorts.ofOutcome (.ok (.states [.one, .one, .one, .x, .z, .z, .zero, .zero]))).st = 0x0AD5#256 := by decide

/-! ### DECODE (95_test_vectors.md S9, 2.3) -/

theorem test_decode_w8_of_L :
    after (st 0x00#6 inputL 0 0 0) = some (.ok (.decoded .w8 (wordsOf 8
      [(0x67, 0, 0), (0x45, 0, 0), (0x23, 0, 0), (0x01, 0, 0), (0, 0x10, 0xef), (0, 0x32, 0xcd), (0, 0x54, 0xab),
        (0, 0x76, 0x89)]))) := by decide

theorem test_decode_w16_of_L :
    after (st 0x01#6 inputL 0 0 0) = some (.ok (.decoded .w16 (wordsOf 16
      [(0x4567, 0, 0), (0x0123, 0, 0), (0, 0x3210, 0xcdef), (0, 0x7654, 0x89ab)]))) := by decide

theorem test_decode_w32_of_L :
    after (st 0x02#6 inputL 0 0 0) = some (.ok (.decoded .w32 (wordsOf 32
      [(0x01234567, 0, 0), (0, 0x76543210, 0x89abcdef)]))) := by decide

/-- S9 at width 64, and DV-10, whose second word is padded. -/
theorem test_decode_w64 :
    after (st 0x03#6 inputL 0 0 0) = some (.ok (.decoded .w64 (wordsOf 64
      [(0x0000000001234567, 0x7654321000000000, 0x89abcdef00000000)]))) ∧
    after (st 0x0B#6 [0x0000000100000003#64, 0x0000000080000000#64, 0xFFFFFFFFFFFFFFFF#64] 0 0 0) =
      some (.ok (.decoded .w64 (wordsOf 64 [(0x8000000000000002, 0, 1), (0, 0, 0x00000000ffffffff)]))) := by decide

/-- DV-6 and DV-11. -/
theorem test_decode_w128 :
    after (st 0x04#6 [0x0000000C0000000A#64] 0 0 0) = some (.ok (.decoded .w128 (wordsOf 128 [(2, 4, 8)]))) ∧
    after (st 0x04#6 [0x0000000100000003#64, 0x0000000080000000#64, 0xFFFFFFFFFFFFFFFF#64] 0 0 0) =
      some (.ok (.decoded .w128 (wordsOf 128 [(0x8000000000000002, 0, 0xffffffff0000000000000001)]))) := by decide

/-- DV-1 and DV-12: no words, and no width. -/
theorem test_decode_of_nothing :
    after (st 0x00#6 [] 0 0 0) = some (.ok (.decoded .w8 [])) ∧
    after (st 0x04#6 [] 0 0 0) = some (.ok (.decoded .w128 [])) ∧
    after (st 0x05#6 [] 0 0 0) = some (.unsupportedWidth 0b101#3) := by decide

/-- The streams of `L`. -/
theorem test_streams_of_L :
    streamBytesA inputL = [0x67#8, 0x45#8, 0x23#8, 0x01#8, 0xef#8, 0xcd#8, 0xab#8, 0x89#8] ∧
    streamBytesB inputL = [0x00#8, 0x00#8, 0x00#8, 0x00#8, 0xff#8, 0xff#8, 0xff#8, 0xff#8] ∧
    streamB inputL = [(4, 0xff#8), (5, 0xff#8), (6, 0xff#8), (7, 0xff#8)] ∧
    memRead (streamA inputL) 6 4 = 0x000089ab#32 := by decide

/-! ### The renderers (95_test_vectors.md 2.4, S2, S3) -/

/-- RR-3, RR-5 and RR-8. -/
theorem test_render_bin_w8 :
    after (st 0x20#6 [] 0 0x10#128 0xE0#128) = some (.ok (.text "xxxz0000".toList)) ∧
    after (st 0x20#6 [] 0xFF#128 0 0x0F#128) = some (.ok (.text "1111xxxx".toList)) ∧
    after (overlap 0x28#6) = some (.ok (.text "0b00zzx111".toList)) := by decide

/-- S2. -/
theorem test_render_bin_w16 :
    after (st 0x21#6 [] 0 0x3210#128 0xcdef#128) = some (.ok (.text "xxzzxxzxxxxzxxxx".toList)) := by decide

/-- S9 at width 32, both words. -/
theorem test_render_bin_w32 :
    after (st 0x22#6 [] 0x01234567#128 0 0) = some (.ok (.text "00000001001000110100010101100111".toList)) ∧
    after (st 0x22#6 [] 0 0x76543210#128 0x89abcdef#128) =
      some (.ok (.text "xzzzxzzxxzxzxzxxxxzzxxzxxxxzxxxx".toList)) := by decide

/-- S9 at width 64. -/
theorem test_render_bin_w64 :
    after (st 0x2B#6 [] 0x01234567#128 0x7654321000000000#128 0x89abcdef00000000#128) =
      some (.ok (.text ("0b".toList ++ "xzzzxzzxxzxzxzxxxxzzxxzxxxxzxxxx".toList ++
        "00000001001000110100010101100111".toList))) := by decide

/-- P3: `B`. -/
theorem test_render_bin_w128 :
    after (st 0x24#6 [] 0 0x76543210#128 0x89abcdef#128) =
      some (.ok (.text (List.replicate 96 '0' ++ "xzzzxzzxxzxzxzxxxxzzxxzxxxxzxxxx".toList))) := by decide +kernel

/-- RR-4, RR-6, RR-7, RR-11 and RR-12. -/
theorem test_render_hex_w8 :
    after (st 0x30#6 [] 0 0xF0#128 0xF0#128) = some (.ok (.text "z0".toList)) ∧
    after (st 0x30#6 [] 0xFF#128 0 0x01#128) = some (.ok (.text "fX".toList)) ∧
    after (st 0x38#6 [] 0x3C#128 0x0F#128 0xF0#128) = some (.ok (.text "0xxz".toList)) ∧
    after (st 0x30#6 [] 0xAA#128 0 0x0F#128) = some (.ok (.text "ax".toList)) ∧
    after (st 0x38#6 [] 0x02#128 0x04#128 0x08#128) = some (.ok (.text "0x0Z".toList)) := by decide

/-- RR-14. -/
theorem test_render_hex_w16 :
    after (st 0x31#6 [] 0xBEEF#128 0 0) = some (.ok (.text "beef".toList)) := by decide

/-- S3, and that the bits of the operand planes above the width are not read. -/
theorem test_render_hex_w32 :
    after (st 0x3A#6 [] 0 0x76543210#128 0x89abcdef#128) = some (.ok (.text "0xZZZZZZZx".toList)) ∧
    after (st 0x32#6 [] 0xF01234567#128 0xF00000000#128 0xF00000000#128) = some (.ok (.text "01234567".toList)) := by
  decide

/-- S9 at width 64. -/
theorem test_render_hex_w64 :
    after (st 0x33#6 [] 0x01234567#128 0x7654321000000000#128 0x89abcdef00000000#128) =
      some (.ok (.text "ZZZZZZZx01234567".toList)) := by decide

/-- P3: `H`, whose length is 34. -/
theorem test_render_hex_w128 :
    after (st 0x3C#6 [] 0 0x76543210#128 0x89abcdef#128) =
      some (.ok (.text "0x000000000000000000000000ZZZZZZZx".toList)) := by decide

/-- RR-15: the character codes of RR-8 in hexadecimal alternate mode. -/
theorem test_render_port :
    (after (overlap 0x38#6)).map (fun o => ((OutPorts.ofOutcome o).len, (OutPorts.ofOutcome o).chList)) =
      some (4, [0x30#8, 0x78#8, 0x5A#8, 0x58#8]) := by decide

/-! ### Programs in the notation of R66 (95_test_vectors.md section 3) -/

/-- The text of a program read line by line. -/
def readLines (ls : List String) : Option (List Line) := ls.mapM (fun l => readLine l.toList)

/-- A word literal with its braces, which this file may not hold inside a string. -/
def braced (body : String) : String := String.ofList (openBrace :: body.toList ++ [closeBrace])

/-- The results of a program read from text, latest first. -/
def resultsOf (ls : List String) : Option (List (String × OpOutcome)) :=
  match (readLines ls).map (fun p => performLines p [] State.reset) with
  | some (.next (env, _)) => some env
  | _ => none

/-- P1. -/
theorem test_program_1 :
    (resultsOf ["decode.w16  D, [0x00000000_01234567, 0xffffffff_89abcdef]     ; sel = 0x01",
      "rbin.w16    S, D[2]"]).map (·.lookup "S") = some (some (.ok (.text "xxzzxxzxxxxzxxxx".toList))) := by decide

/-- P2: `H` and `G`. -/
theorem test_program_2 :
    ((resultsOf ["decode.w32    D, [0x00000000_01234567, 0xffffffff_89abcdef]", "resolve.w32   R, D[0]",
      "rhex.w32.alt  H, D[1]", "rhex.w32      G, D[0]"]).map (fun e => (e.lookup "H", e.lookup "G"))) =
      some (some (.ok (.text "0xZZZZZZZx".toList)), some (.ok (.text "01234567".toList))) := by decide

/-- P4: line 2 succeeds after line 1's fault, line 3 faults, and the program as a whole ends in the first fault. -/
theorem test_program_4 :
    resultsOf ["sel 0x05      D, [0x00000000_01234567]", "decode.w8     E, [0x00000000_01234567]",
      "sel 0x3F      H, " ++ braced "v=0, z=0, x=0"] =
      some [("H", .unsupportedWidth 0b111#3),
        ("E", .ok (.decoded .w8 (wordsOf 8 [(0x67, 0, 0), (0x45, 0, 0), (0x23, 0, 0), (0x01, 0, 0)]))),
        ("D", .unsupportedWidth 0b101#3)] := by decide

theorem test_program_4_ends_in_its_first_fault :
    runProgram [⟨0x05#6, "D", .packed [0x01234567#64]⟩, ⟨0x00#6, "E", .packed [0x01234567#64]⟩,
      ⟨0x3F#6, "H", .word 0 0 0⟩] State.reset = .fault (.unsupportedWidth 0b101#3) := rfl

/-- A program that met a fault and then names an element of the faulted DECODE ends in that fault; one that met none and names
an absent element is refused (R108; log entries 5 and 17). -/
theorem test_fault_wins_over_refusal :
    runProgram [⟨0x05#6, "D", .packed [1]⟩, ⟨0x20#6, "S", .element "D" 0⟩] State.reset =
      .fault (.unsupportedWidth 0b101#3) ∧
    runProgram [⟨0x00#6, "D", .packed []⟩, ⟨0x20#6, "S", .element "D" 0⟩] State.reset =
      .refused (.noSuchElement "D" 0) := ⟨rfl, rfl⟩

/-- P5, its second line: the text, and its result. -/
theorem test_program_5 :
    readLine ("rbin.w8.alt   B, " ++ braced "v=0x0F, z=0x30, x=0x18").toList =
      some ⟨0x28#6, "B", .word 0x0F 0x30 0x18⟩ ∧
    after (State.reset.present ⟨0x28#6, [], 0x0F, 0x30, 0x18⟩) = some (.ok (.text "0b00zzx111".toList)) := by decide

/-! ### Reset -/

/-- The outcome held at reset is the one the reset inputs give (log entry 3). -/
theorem test_reset_outcome_is_of_its_inputs : step State.reset = .next State.reset := rfl

/-- The ports follow the inputs as soon as they are presented (R117): RR-8's text, and then a fault, before any step. -/
theorem test_ports_follow_the_inputs :
    (overlap 0x38#6).ports.chList = [0x30#8, 0x78#8, 0x5A#8, 0x58#8] ∧
    ((overlap 0x38#6).withFetchWord 8 0x3F).ports.cinfo = 0b111#3 := by decide

/-! ### The well-formedness checks: an ill-formed term for each, which the check refuses -/

/-- Every instruction is well-formed; both values of `alt` are (R60). -/
theorem test_wf_instr : Instr.wellFormed (.decodeW8 true) = true ∧ Instr.wellFormed (.renderHexW128 false) = true := by
  decide

/-- A DECODE given a word, a RESOLVE given packed words, a literal wider than its width. -/
theorem test_wf_operand_kinds :
    programWf [] [⟨0x00#6, "D", .word 0 0 0⟩] = false ∧ programWf [] [⟨0x10#6, "R", .packed []⟩] = false ∧
    programWf [] [⟨0x20#6, "S", .word 0x100 0 0⟩] = false ∧ programWf [] [⟨0x20#6, "S", .word 0 0x100 0⟩] = false ∧
    programWf [] [⟨0x20#6, "S", .word 0 0 0x100⟩] = false ∧ programWf [] [⟨0x20#6, "S", .word 0xFF 0xFF 0xFF⟩] = true := by
  decide

/-- An element of no result, past the end, of another width, of a result that is no DECODE's, and given to a DECODE. -/
theorem test_wf_elements :
    programWf [] [⟨0x21#6, "S", .element "D" 0⟩] = false ∧
    programWf [] [⟨0x01#6, "D", .packed inputL⟩, ⟨0x21#6, "S", .element "D" 4⟩] = false ∧
    programWf [] [⟨0x01#6, "D", .packed inputL⟩, ⟨0x20#6, "S", .element "D" 0⟩] = false ∧
    programWf [] [⟨0x10#6, "D", .word 0 0 0⟩, ⟨0x20#6, "S", .element "D" 0⟩] = false ∧
    programWf [] [⟨0x05#6, "D", .packed inputL⟩, ⟨0x20#6, "S", .element "D" 0⟩] = false ∧
    programWf [] [⟨0x01#6, "D", .packed inputL⟩, ⟨0x01#6, "E", .element "D" 0⟩] = false ∧
    programWf [] [⟨0x01#6, "D", .packed inputL⟩, ⟨0x21#6, "S", .element "D" 3⟩] = true := by decide

/-- Input ports with more words counted than the instance has, and with a wrong number of word ports. -/
theorem test_wf_ports :
    (⟨0, 3, [0, 0], 0, 0, 0⟩ : InPorts).fits 2 = false ∧ (⟨0, 1, [0], 0, 0, 0⟩ : InPorts).fits 2 = false ∧
    (⟨0, 2, [0, 0], 0, 0, 0⟩ : InPorts).fits 2 = true := by decide

/-- A line that is not of the notation is not read: no such operation, no width of 4, no `.alt` on decode, a packed literal
of more than 64 bits, and text after the operand. -/
theorem test_lines_refused :
    readLine "nop D, []".toList = none ∧ readLine "decode.w4 D, []".toList = none ∧
    readLine "decode.w8.alt D, []".toList = none ∧ readLine "decode.w8 D, [0x1_00000000_00000000]".toList = none ∧
    readLine "rbin.w8 S, D[0] D[1]".toList = none ∧
    readLine "decode.w8 D, []".toList = some ⟨0x00#6, "D", .packed []⟩ := by decide

/-! ### Witnesses: for each statement with hypotheses, a case that meets all of them -/

/-- A state that decodes `L` at width 8. -/
def decodingL : State := st 0x00#6 inputL 0 0 0

/-- A state whose selector names no width. -/
def faulting : State := st 0x3F#6 inputL 1 2 3

/-- A request that meets an unsupported width, and one that does not. -/
def badRequest : Request := ⟨0x05#6, inputL, 0, 0, 0⟩
def goodRequest : Request := ⟨0x00#6, inputL, 0, 0, 0⟩

theorem witness_SelectorCodesDecode : 5 ≤ (0b101#3).toNat ∧ 5 ≤ (0b111#3).toNat := by decide

theorem witness_SelectorRoundTrip :
    decodeSel 0x34#6 = .instr (.renderHexW128 false) ∧ decodeSel 0x3F#6 = .unsupportedWidth 0b111#3 := by decide

theorem witness_StepRunsDecodedInstruction : decodeSel decodingL.sel = .instr (.decodeW8 false) := by decide

theorem witness_UnsupportedWidthIsRaised : 5 ≤ (wselField faulting.sel).toNat := by decide

/-- Both clauses: a width code of 5 or more, and the last one below it. -/
theorem witness_ErrorPortsTellTheFault :
    (step faulting = .next (faulting.withOutcome (.unsupportedWidth 0b111#3)) ∧ 5 ≤ (wselField faulting.sel).toNat) ∧
    (∃ t, step (st 0x04#6 [] 0 0 0) = .next t) ∧ (wselField (st 0x04#6 [] 0 0 0).sel).toNat < 5 :=
  ⟨⟨rfl, by decide⟩, ⟨_, rfl⟩, by decide⟩

theorem witness_ReservedSelectorsFault :
    ∃ t, step faulting = .next t ∧ t.outcome = .unsupportedWidth 0b111#3 := ⟨_, rfl, rfl⟩

theorem witness_FaultIsNotSticky :
    supportedSelector badRequest.sel = false ∧ ∃ t, perform badRequest State.reset = .next t := ⟨by decide, _, rfl⟩

/-- Each operation, at the widest width. -/
theorem witness_SupportedWidthsSucceed :
    (wselField 0x04#6 = widthCode .w128 ∧ opField 0x04#6 = 0b00#2) ∧
    (wselField 0x14#6 = widthCode .w128 ∧ opField 0x14#6 = 0b01#2) ∧
    (wselField 0x2C#6 = widthCode .w128 ∧ opField 0x2C#6 = 0b10#2) ∧
    (wselField 0x3C#6 = widthCode .w128 ∧ opField 0x3C#6 = 0b11#2) := by decide

/-- Two DECODEs with other operand words, and two RENDER_BINs with other packed words and other bits above the width. -/
theorem witness_OutcomeDependsOnOwnInputsOnly :
    ((st 0x00#6 inputL 1 2 3).sel = (st 0x00#6 inputL 4 5 6).sel ∧
      opField (st 0x00#6 inputL 1 2 3).sel = 0b00#2 ∧ (st 0x00#6 inputL 1 2 3).pk = (st 0x00#6 inputL 4 5 6).pk ∧
      (∃ t, step (st 0x00#6 inputL 1 2 3) = .next t) ∧ ∃ t, step (st 0x00#6 inputL 4 5 6) = .next t) ∧
    ((st 0x20#6 inputL 0x10F 0 0).sel = (st 0x20#6 [] 0x20F 0 0).sel ∧ opField (0x20#6) ≠ 0b00#2 ∧
      widthOfCode (wselField 0x20#6) = some .w8 ∧
      (∀ p, p < 8 → (0x10F#128).getLsbD p = (0x20F#128).getLsbD p) ∧
      (∃ t, step (st 0x20#6 inputL 0x10F 0 0) = .next t) ∧ ∃ t, step (st 0x20#6 [] 0x20F 0 0) = .next t) :=
  ⟨⟨rfl, by decide, rfl, ⟨_, rfl⟩, _, rfl⟩, rfl, by decide, by decide, by decide, ⟨_, rfl⟩, _, rfl⟩

theorem witness_InstructionsChangeOnlyTheOutcome : ∃ t, exec (.decodeW8 false) decodingL = .next t := ⟨_, rfl⟩

theorem witness_StepChangesOnlyTheOutcome : (∃ t, step decodingL = .next t) ∧ ∃ t, step faulting = .next t :=
  ⟨⟨_, rfl⟩, _, rfl⟩

theorem witness_StepIsIdempotent : (∃ t, step decodingL = .next t) ∧ ∃ t, step faulting = .next t :=
  ⟨⟨_, rfl⟩, _, rfl⟩

/-- The last word of `L` at width 8 and its top position. -/
theorem witness_DecodeAnswersTheWords : (decodeWords 8 inputL)[7]? = some ⟨0x00#8, 0x76#8, 0x89#8⟩ ∧ 7 < 8 := by decide

theorem witness_DecodeOfNothingIsEmpty : State.reset.pk = [] := rfl

/-- Word 4 of `L` at width 8, which a step gives. -/
theorem witness_DecodesTo : Claims.DecodesTo decodingL .w8 4 ⟨0x00#8, 0x10#8, 0xef#8⟩ :=
  ⟨_, _, rfl, rfl, by decide⟩

theorem witness_DecodedPlanesAreDisjoint : Claims.DecodesTo decodingL .w8 4 ⟨0x00#8, 0x10#8, 0xef#8⟩ :=
  witness_DecodesTo

/-- Both clauses meet at position 31 of one packed word, decoded at width 64: 31 is in it and 32 is past its end. -/
theorem witness_DecodedWordsAgreeWithPairEncoding :
    Claims.DecodesTo (st 0x03#6 [0xFFFFFFFFFFFFFFFF#64] 0 0 0) .w64 0 ⟨0#64, 0#64, 0x00000000ffffffff#64⟩ ∧
    31 < Width.w64.bits ∧ 0 * Width.w64.bits + 31 < 32 * [0xFFFFFFFFFFFFFFFF#64].length ∧
    32 < Width.w64.bits ∧ 32 * [0xFFFFFFFFFFFFFFFF#64].length ≤ 0 * Width.w64.bits + 32 :=
  ⟨⟨_, _, rfl, rfl, by decide⟩, by decide, by decide, by decide, by decide⟩

/-- S5 at width 32. -/
theorem witness_PureValueRoundTrip :
    Claims.DecodesTo (st 0x02#6 [0x0000000001234567#64] 0 0 0) .w32 0 ⟨0x01234567#32, 0#32, 0#32⟩ ∧
    (∀ x ∈ [0x0000000001234567#64], BitVec.extractLsb' 32 32 x = 0#32) ∧ 31 < Width.w32.bits :=
  ⟨⟨_, _, rfl, rfl, by decide⟩, fun x hx => by rw [List.mem_singleton.mp hx]; decide, by decide⟩

/-- Width 128 from width 64 on one packed word: the upper word of the pair is past the last. -/
theorem witness_DoubleWidthWordsConcatenate :
    64 ∈ [8, 16, 32, 64] ∧ (decodeWords (64 + 64) [0x0000000C0000000A#64])[0]? = some ⟨2#128, 4#128, 8#128⟩ ∧
    (decodeWords 64 [0x0000000C0000000A#64])[1]? = none := by decide

theorem witness_TwoWordsAtWidth128ArePadded : (st 0x04#6 inputL 0 0 0).pk = [0x0000000001234567#64, 0xffffffff89abcdef#64] :=
  rfl

/-- The last byte of the last word. -/
theorem witness_StreamBytesAreThePlanes : inputL[1]? = some 0xffffffff89abcdef#64 ∧ 3 < 4 := by decide

/-- The first absent byte; and the last group, padded at width 128 with one word and not padded at width 32. -/
theorem witness_AbsentBytesReadZero :
    4 * inputL.length ≤ 8 ∧ 0 < decodeCount Width.w128.bits 1 ∧ 4 * 1 < (0 + 1) * (Width.w128.bits / 8) ∧
    1 < decodeCount Width.w32.bits 2 ∧ ¬ 4 * 2 < (1 + 1) * (Width.w32.bits / 8) := by decide

theorem witness_GroupsAreLittleEndian : 15 < Width.w128.bits / 8 := by decide

/-- The first group wholly past the end of `L` at width 64. -/
theorem witness_DoubleWidthGroupsConcatenate : 64 ∈ [8, 16, 32, 64] ∧ 4 * inputL.length ≤ 1 * (64 / 8) := by decide

theorem witness_WholeVectorView :
    (0x89abcdef01234567 : Nat) =
      ∑ k ∈ Finset.range inputL.length, ((inputL.getD k 0).extractLsb' 0 32).toNat * 2 ^ (32 * k) ∧
    (0xffffffff00000000 : Nat) =
      ∑ k ∈ Finset.range inputL.length, ((inputL.getD k 0).extractLsb' 32 32).toNat * 2 ^ (32 * k) ∧
    63 < 32 * inputL.length := by
  refine ⟨?_, ?_, by decide⟩ <;> simp [inputL, Finset.sum_range_succ]

/-- Position 4 of RV-1, where Z and X are both set. -/
theorem witness_ResolveAnswersTheStates :
    ([.one, .one, .one, .x, .z, .z, .zero, .zero] : List State4)[4]? = some .z ∧
    after (overlap 0x10#6) = some (.ok (.states [.one, .one, .one, .x, .z, .z, .zero, .zero])) := by decide

/-- Position 0 of a word of width 8 and position 15 of one of width 16. -/
theorem witness_ResolutionIsPerPosition :
    0 < 8 ∧ 15 < 16 ∧ (0x01#8).getLsbD 0 = (0x8000#16).getLsbD 15 ∧ (0x00#8).getLsbD 0 = (0x0000#16).getLsbD 15 ∧
    (0x01#8).getLsbD 0 = (0x8000#16).getLsbD 15 := by decide

theorem witness_PlaneFormTellsTheStates : 7 < 8 := by decide

theorem witness_RenderBinAnswersTheText :
    after (overlap 0x20#6) = some (.ok (.text "00zzx111".toList)) ∧ ("00zzx111".toList)[7]? = some '1' := by decide

theorem witness_RenderHexAnswersTheText :
    after (overlap 0x30#6) = some (.ok (.text "ZX".toList)) ∧ ("ZX".toList)[1]? = some 'X' := by decide

/-- Each clause: no Z, some Z, all Z. -/
theorem witness_HexCaseTellsWholeFromPartial :
    hexChar 0#4 0#4 0xF#4 = 'x' ∧ (0x1#4 ≠ 0#4) ∧ hexChar 0#4 0x1#4 0xF#4 = 'Z' ∧ hexChar 0#4 0xF#4 0#4 = 'z' ∧
    hexChar 0#4 0#4 0x7#4 = 'X' := by decide

/-- A nibble for each clause, at the edges of its counts. -/
theorem witness_HexCharacterIsOfTheStates :
    0 < 8 / 4 ∧ Claims.countIn (⟨0#8, 0x0F#8, 0#8⟩ : FourStateWord 8) 0 .z = 4 ∧
    Claims.countIn (⟨0#8, 0x07#8, 0#8⟩ : FourStateWord 8) 0 .z = 3 ∧
    Claims.countIn (⟨0#8, 0x01#8, 0#8⟩ : FourStateWord 8) 0 .z = 1 ∧
    Claims.countIn (⟨0#8, 0#8, 0x0F#8⟩ : FourStateWord 8) 0 .z = 0 ∧
    Claims.countIn (⟨0#8, 0#8, 0x0F#8⟩ : FourStateWord 8) 0 .x = 4 ∧
    Claims.countIn (⟨0#8, 0#8, 0x01#8⟩ : FourStateWord 8) 0 .x = 1 ∧
    Claims.countIn (⟨0xFF#8, 0#8, 0#8⟩ : FourStateWord 8) 0 .x = 0 := by decide

theorem witness_BinaryAndHexTextsAgree : 1 < Width.w8.bits / 4 := by decide

/-- Words 4 and 7 of `L` at width 8: position 4 of word 4 is (0, 1), position 0 is (1, 1) in a nibble without Z. -/
theorem witness_DecodedBitsRender :
    Claims.DecodesTo decodingL .w8 4 ⟨0x00#8, 0x10#8, 0xef#8⟩ ∧ 4 < Width.w8.bits ∧
    Claims.pairAt inputL (4 * Width.w8.bits + 4) = (false, true) ∧
    Claims.pairAt inputL (4 * Width.w8.bits + 0) = (true, true) ∧
    ∀ j, j < 4 → (⟨0x00#8, 0x10#8, 0xef#8⟩ : FourStateWord 8).stateAt (4 * (0 / 4) + j) ≠ .z :=
  ⟨witness_DecodesTo, by decide, by decide, by decide, by decide⟩

theorem witness_TextsKeepToTheAlphabet :
    ∃ t, step (overlap 0x28#6) = .next t ∧ t.outcome = .ok (.text "0b00zzx111".toList) ∧ 'z' ∈ "0b00zzx111".toList :=
  ⟨_, rfl, by decide, by decide⟩

/-- P1: word 2 of `L` at width 16, put on the operand planes. -/
theorem witness_DecodeThenRenderReadsTheBits :
    ∃ t, exec (instrOf .decode .w16 false) (st 0x01#6 inputL 0 0 0) = .next t ∧
      t.outcome = .ok (.decoded .w16 (decodeWords 16 inputL)) ∧
      (decodeWords 16 inputL)[2]? = some ⟨0#16, 0x3210#16, 0xcdef#16⟩ ∧
      (st 0x21#6 [] 0 0x3210 0xcdef).opz = (0x3210#16).setWidth 128 ∧
      (st 0x21#6 [] 0 0x3210 0xcdef).opx = (0xcdef#16).setWidth 128 ∧
      (st 0x21#6 [] 0 0x3210 0xcdef).opv = (0#16).setWidth 128 ∧ 15 < Width.w16.bits :=
  ⟨_, rfl, rfl, by decide, by decide, by decide, by decide, by decide⟩

/-- A disciplined state other than the one before any operation: the outcome it holds is a fault. -/
theorem witness_StepKeepsThePortDiscipline :
    (st 0x30#6 [] 0x5A 0 0 |>.withOutcome (.unsupportedWidth 0b101#3)).takenPorts.Disciplined ∧
    ∃ t, step (st 0x30#6 [] 0x5A 0 0 |>.withOutcome (.unsupportedWidth 0b101#3)) = .next t :=
  ⟨⟨.inr rfl, by decide, fun _ => rfl, fun h => absurd h (by decide),
    fun _ => ⟨rfl, rfl, rfl, fun _ => ⟨rfl, rfl, rfl, rfl⟩⟩, by decide, fun _ _ => ⟨rfl, rfl, rfl⟩, fun _ _ => rfl,
    by decide⟩, _, rfl⟩

/-- A request performed after a fault, and a step. -/
theorem witness_OutputsFollowThePresentInputs :
    (∃ t, step faulting = .next t) ∧ ∃ t, perform goodRequest faulting = .next t := ⟨⟨_, rfl⟩, _, rfl⟩

theorem witness_DecodePortsCarryTheWords : decodeSel (st 0x0C#6 inputL 0 0 0).sel = .instr (instrOf .decode .w128 true) := by
  decide

/-- Position 3 of RV-1 is X, the pair (1, 1); the first bit past `2W` is 16. -/
theorem witness_ResolvePortsCarryTheCodes :
    decodeSel (overlap 0x10#6).sel = .instr (instrOf .resolve .w8 false) ∧ 3 < Width.w8.bits ∧
    pairState true true = resolveBit ((0x0F#128).getLsbD 3) ((0x30#128).getLsbD 3) ((0x18#128).getLsbD 3) ∧
    2 * Width.w8.bits ≤ 16 := by decide

theorem witness_RenderPortsCarryTheText :
    ∃ t, step (overlap 0x38#6) = .next t ∧ t.outcome = .ok (.text "0xZX".toList) ∧
      ("0xZX".toList)[3]? = some 'X' ∧ "0xZX".toList.length ≤ 4 := ⟨_, rfl, by decide, by decide, by decide⟩

/-- A request that fills its instance; and two settings of the ports that differ in a word port past `n` only. -/
theorem witness_InputPortsCarryTheRequest :
    goodRequest.pk.length ≤ 2 ∧
    (∀ k, k < 1 → (⟨0, 1, [7, 8], 0, 0, 0⟩ : InPorts).pk[k]? = (⟨0, 1, [7, 9], 0, 0, 0⟩ : InPorts).pk[k]?) := by decide

theorem witness_FirstOperationIsLikeAnyOther :
    (∃ t, perform goodRequest State.reset = .next t) ∧ ∃ u, perform goodRequest faulting = .next u := ⟨⟨_, rfl⟩, _, rfl⟩

/-- The second of two requests, the first of which faults. -/
theorem witness_SequenceOutcomesAreIndependent :
    [badRequest, goodRequest][1]? = some goodRequest ∧
    (∃ o t, performAll [badRequest, goodRequest] State.reset = .next ([.unsupportedWidth 0b101#3, o], t)) ∧
    ∃ v, perform goodRequest faulting = .next v := ⟨rfl, ⟨_, _, rfl⟩, _, rfl⟩

theorem witness_SequenceKeepsItsFault :
    safeSequence [goodRequest] ∧ supportedSelector badRequest.sel = false := by decide

/-- P1 is well-formed and ends well; P4 is well-formed and ends in a fault. -/
theorem witness_WellFormedProgramsRun :
    programWf [] [⟨0x01#6, "D", .packed inputL⟩, ⟨0x21#6, "S", .element "D" 2⟩] = true ∧
    programWf [] [⟨0x05#6, "D", .packed inputL⟩, ⟨0x00#6, "E", .packed inputL⟩, ⟨0x3F#6, "H", .word 0 0 0⟩] = true := by
  decide

/-- A good DECODE, then a faulted one. -/
theorem witness_ProgramKeepsItsFault :
    programWf [] ([⟨0x01#6, "D", .packed inputL⟩] ++ [⟨0x05#6, "E", .packed inputL⟩]) = true ∧
    (∀ k ∈ ([⟨0x01#6, "D", .packed inputL⟩] : List Line), supportedSelector k.sel = true) ∧
    supportedSelector 0x05#6 = false := by decide

end Sys2Proof.Tests
end

section
/-! PROOFS. The scope of the machine: a step runs the decoded instruction (R7, R29, R62), and the input ports carry the
request (R9, R27). -/

namespace Sys2Proof.Machine

/-- The decoded instruction is all there is to a step whose selector is supported. -/
theorem step_of_decodeSel {s : State} {i : Instr} (h : decodeSel s.sel = .instr i) : step s = exec i s := by
  rw [step, h]

/-- Settles O6: `step` branches on the decoded selector only. -/
theorem stepRunsDecodedInstruction : Obligations.StepRunsDecodedInstruction :=
  fun _ _ => step_of_decodeSel

/-- The zero words on the unread ports make up the `nMax` word ports exactly (R9). -/
theorem InPorts.ofRequest_fits {nMax : Nat} {r : Request} (h : r.pk.length ≤ nMax) :
    (InPorts.ofRequest nMax r).fits nMax = true := by
  have hports : (InPorts.ofRequest nMax r).pk.length = nMax := by
    rw [InPorts.ofRequest, List.length_append, List.length_replicate, Nat.add_sub_cancel' h]
  have hcount : (InPorts.ofRequest nMax r).n ≤ nMax := h
  simp [InPorts.fits, hports, hcount]

/-- Reading the first `n` word ports drops the padding and nothing else, also of a request of more than `nMax` words. -/
@[simp] theorem InPorts.ofRequest_request (nMax : Nat) (r : Request) : (InPorts.ofRequest nMax r).request = r := by
  simp only [InPorts.request, InPorts.ofRequest, List.take_left]

/-- Lists that agree below `n` have the same first `n` elements. -/
theorem take_eq_take_of_getElem? {α : Type} {xs ys : List α} {n : Nat} (h : ∀ k, k < n → xs[k]? = ys[k]?) :
    xs.take n = ys.take n := by
  refine List.ext_getElem? fun k => ?_
  by_cases hk : k < n
  · rw [List.getElem?_take_of_lt hk, List.getElem?_take_of_lt hk, h k hk]
  · rw [List.getElem?_take_eq_none (by omega), List.getElem?_take_eq_none (by omega)]

/-- Settles O47: the padding of `ofRequest` is never read back, and neither is any word port at or past `n`. -/
theorem inputPortsCarryTheRequest : Obligations.InputPortsCarryTheRequest := by
  refine ⟨fun nMax r h => ⟨InPorts.ofRequest_fits h, InPorts.ofRequest_request nMax r⟩, ?_⟩
  intro p q hsel hn hopv hopz hopx hread
  have hpk : p.pk.take p.n = q.pk.take q.n := hn ▸ take_eq_take_of_getElem? hread
  rw [InPorts.request, InPorts.request, hsel, hpk, hopv, hopz, hopx]

end Sys2Proof.Machine
end

section
/-! PROOFS. The discipline of the output ports (R27, R103, R107): every outcome a step can end with stands on them in a
disciplined way, whatever the outcome before. -/

namespace Sys2Proof.Machine

/-- Two characters of the alternate mode and a digit for each position. -/
theorem length_renderBin_le (w : Width) (alt : Bool) (f : FourStateWord w.bits) : (renderBin alt f).length ≤ 130 := by
  have hw := bits_le w
  cases alt <;> simp [renderBin_eq] <;> omega

/-- Two characters of the alternate mode and a digit for each nibble. -/
theorem length_renderHex_le (w : Width) (alt : Bool) (f : FourStateWord w.bits) : (renderHex alt f).length ≤ 130 := by
  have hw := bits_le w
  cases alt <;> simp [renderHex_eq] <;> omega

/-- The longest text of any operation is that of RENDER_BIN at width 128 in alternate mode. -/
theorem resultOf_len_le (o : Op) (w : Width) (alt : Bool) (s : State) :
    (OutPorts.ofOutcome (.ok (resultOf o w alt s))).len ≤ 130 := by
  cases o with
  | decode => exact Nat.zero_le _
  | resolve => exact Nat.zero_le _
  | renderBin => exact length_renderBin_le w alt _
  | renderHex => exact length_renderHex_le w alt _

@[simp] theorem ofOutcome_ok_cause (r : Result) : (OutPorts.ofOutcome (.ok r)).cause = 0#4 := by cases r <;> rfl

@[simp] theorem ofOutcome_ok_cinfo (r : Result) : (OutPorts.ofOutcome (.ok r)).cinfo = 0#3 := by cases r <;> rfl

/-- A success has the data of one operation on the ports. -/
theorem ofOutcome_ok_one_family (r : Result) :
    ((OutPorts.ofOutcome (.ok r)).m = 0 ∨ (OutPorts.ofOutcome (.ok r)).len = 0) ∧
    ((OutPorts.ofOutcome (.ok r)).st = 0#256 ∨
      ((OutPorts.ofOutcome (.ok r)).m = 0 ∧ (OutPorts.ofOutcome (.ok r)).len = 0)) := by
  cases r with
  | decoded w ws => exact ⟨.inr rfl, .inl rfl⟩
  | states ss => exact ⟨.inl rfl, .inr ⟨rfl, rfl⟩⟩
  | text cs => exact ⟨.inl rfl, .inl rfl⟩

/-- The word ports at or past `m` read 0 after a success. -/
theorem ofOutcome_ok_past_m (r : Result) (i : Nat) (h : (OutPorts.ofOutcome (.ok r)).m ≤ i) :
    (OutPorts.ofOutcome (.ok r)).dv i = 0#128 ∧ (OutPorts.ofOutcome (.ok r)).dz i = 0#128 ∧
    (OutPorts.ofOutcome (.ok r)).dx i = 0#128 := by
  cases r with
  | decoded w ws =>
    have hnone : ws[i]? = none := List.getElem?_eq_none h
    simp [ofOutcome_decoded_dv, ofOutcome_decoded_dz, ofOutcome_decoded_dx, hnone]
  | states ss => exact ⟨rfl, rfl, rfl⟩
  | text cs => exact ⟨rfl, rfl, rfl⟩

/-- The character ports at or past `len` read 0 after a success. -/
theorem ofOutcome_ok_past_len (r : Result) (j : Nat) (h : (OutPorts.ofOutcome (.ok r)).len ≤ j) :
    (OutPorts.ofOutcome (.ok r)).ch j = 0#8 := by
  cases r with
  | decoded w ws => rfl
  | states ss => rfl
  | text cs =>
    have hnone : cs[j]? = none := List.getElem?_eq_none h
    simp [ofOutcome_text_ch, hnone]

/-- A success is disciplined as soon as its text, if any, fits the character ports. -/
theorem ofOutcome_ok_disciplined {r : Result} (h : (OutPorts.ofOutcome (.ok r)).len ≤ 130) :
    (OutPorts.ofOutcome (.ok r)).Disciplined where
  cause_le_one := .inl (ofOutcome_ok_cause r)
  err_iff_cause := by simp
  fault_cinfo := by simp
  ok_cinfo _ := ofOutcome_ok_cinfo r
  fault_data := by simp
  one_family := ofOutcome_ok_one_family r
  past_m := ofOutcome_ok_past_m r
  past_len := ofOutcome_ok_past_len r
  len_le := h

/-- A fault is disciplined when its `wsel` names no width: the ports carry no data at all. -/
theorem ofOutcome_fault_disciplined {wsel : BitVec 3} (h : widthOfCode wsel = none) :
    (OutPorts.ofOutcome (.unsupportedWidth wsel)).Disciplined where
  cause_le_one := .inr rfl
  err_iff_cause := iff_of_true rfl rfl
  fault_cinfo _ := h
  ok_cinfo := by simp
  fault_data _ := ⟨rfl, rfl, rfl, fun _ => ⟨rfl, rfl, rfl, rfl⟩⟩
  one_family := ⟨.inl rfl, .inl rfl⟩
  past_m _ _ := ⟨rfl, rfl, rfl⟩
  past_len _ _ := rfl
  len_le := Nat.zero_le _

/-- The outcome of any step is disciplined on the ports, whatever the state. -/
theorem stepOutcome_disciplined (s : State) : (OutPorts.ofOutcome (stepOutcome s)).Disciplined := by
  unfold stepOutcome
  cases hw : widthOfCode (wselField s.sel) with
  | none => exact ofOutcome_fault_disciplined hw
  | some w => exact ofOutcome_ok_disciplined (resultOf_len_le _ w _ s)

/-- What a step answers: the same inputs, with the outcome of the selector's operation. -/
theorem step_eq_next_iff {s t : State} : step s = .next t ↔ t = s.withOutcome (stepOutcome s) := by
  rw [step_eq, Host.Outcome.next.injEq, eq_comm]

/-- Settles O42: the premise on the outcome before is not needed, since a step never reads that outcome. -/
theorem stepKeepsThePortDiscipline : Obligations.StepKeepsThePortDiscipline := by
  intro s t _ h
  obtain rfl := step_eq_next_iff.mp h
  rw [State.withOutcome_takenPorts, State.withOutcome_ports, State.ports_eq]
  exact ⟨stepOutcome_disciplined s, rfl⟩

/-- The outcome before any operation is the one its inputs give (log entry 3). -/
theorem reset_outcome : State.reset.outcome = stepOutcome State.reset := rfl

/-- Settles O43: the reset outcome is that of a step, so its ports are those of a step. -/
theorem resetPortsAreDisciplined : Obligations.ResetPortsAreDisciplined := by
  rw [Obligations.ResetPortsAreDisciplined, State.takenPorts, State.ports_eq, reset_outcome]
  exact ⟨stepOutcome_disciplined _, rfl⟩

end Sys2Proof.Machine
end

section
/-! PROOFS. What a step reads and what it changes (R17, R34, R107). -/

namespace Sys2Proof.Machine

/-- Replacing the outcome changes no input and no byte of the streams. -/
theorem State.sameInputs_withOutcome (s : State) (o : OpOutcome) : Claims.SameInputs s (s.withOutcome o) :=
  ⟨rfl, rfl, rfl, rfl, rfl, fun _ => ⟨rfl, rfl⟩⟩

/-- Settles O13: a step replaces the outcome, a fault's too, and nothing else. -/
theorem stepChangesOnlyTheOutcome : Obligations.StepChangesOnlyTheOutcome := by
  intro s t h
  obtain rfl := step_eq_next_iff.mp h
  exact s.sameInputs_withOutcome _

/-- The code `00`, and no other, names DECODE (R58). -/
theorem opOfCode_eq_decode_iff : ∀ c : BitVec 2, opOfCode c = .decode ↔ c = 0b00#2 := by decide

/-- The low `W` bits of a plane, by those bits. -/
theorem setWidth_congr {W n : Nat} {a b : BitVec n} (h : ∀ p, p < W → a.getLsbD p = b.getLsbD p) :
    a.setWidth W = b.setWidth W :=
  BitVec.eq_of_getLsbD_eq fun p hp => by rw [BitVec.getLsbD_setWidth, BitVec.getLsbD_setWidth, h p hp]

/-- The operand word at width `W` reads no bit of the operand planes at or above `W` (R27). -/
theorem operandWord_congr {W : Nat} {s t : State}
    (h : ∀ p, p < W → s.opv.getLsbD p = t.opv.getLsbD p ∧ s.opz.getLsbD p = t.opz.getLsbD p ∧
      s.opx.getLsbD p = t.opx.getLsbD p) :
    operandWord W s = operandWord W t := by
  rw [operandWord, operandWord, setWidth_congr fun p hp => (h p hp).1, setWidth_congr fun p hp => (h p hp).2.1,
    setWidth_congr fun p hp => (h p hp).2.2]

/-- DECODE reads the packed vector only, and every other operation the operand word only. -/
theorem resultOf_congr {o : Op} {w : Width} {alt : Bool} {s t : State} (hpk : o = .decode → s.pk = t.pk)
    (hop : o ≠ .decode → operandWord w.bits s = operandWord w.bits t) : resultOf o w alt s = resultOf o w alt t := by
  cases o with
  | decode => rw [resultOf, resultOf, hpk rfl]
  | resolve => rw [resultOf, resultOf, hop nofun]
  | renderBin => rw [resultOf, resultOf, hop nofun]
  | renderHex => rw [resultOf, resultOf, hop nofun]

/-- Settles O11: the width and the operation come from the selector, and the result from the operands that operation reads. -/
theorem outcomeDependsOnOwnInputsOnly : Obligations.OutcomeDependsOnOwnInputsOnly := by
  intro s t s' t' hsel hpk hop hs ht
  obtain rfl := step_eq_next_iff.mp hs
  obtain rfl := step_eq_next_iff.mp ht
  simp only [State.withOutcome_outcome, stepOutcome, ← hsel]
  cases hw : widthOfCode (wselField s.sel) with
  | none => rfl
  | some w =>
    have hres := resultOf_congr (alt := altField s.sel) (fun h => hpk ((opOfCode_eq_decode_iff _).mp h))
      (fun h => operandWord_congr (hop (mt (opOfCode_eq_decode_iff _).mpr h) w hw))
    exact congrArg OpOutcome.ok hres

end Sys2Proof.Machine
end

section
/-! PROOFS. The words of a DECODE, by the pairs of logical bits (R39, R51, R76), on the output ports (R27) and through
RENDER_BIN (R88, R89). -/

namespace Sys2Proof.Machine

/-- The pair of a logical bit is its bit of the a-planes and its bit of the b-planes. -/
theorem pairAt_eq (pk : List PackedWord) (q : Nat) : Claims.pairAt pk q = (aBit pk q, bBit pk q) := by
  rw [Claims.pairAt, aBit, bBit, List.getD_eq_getElem?_getD]
  cases pk[q / 32]? with
  | none => simp
  | some w => rfl

/-- A plane of the words of a DECODE as the word ports carry it: 0 past the last word and past the width. -/
theorem decodeWords_port_getLsbD (w : Width) (pk : List PackedWord) (plane : FourStateWord w.bits → BitVec w.bits)
    (i p : Nat) :
    (((decodeWords w.bits pk)[i]?.map fun f => (plane f).setWidth 128).getD 0#128).getLsbD p =
      (decide (i < decodeCount w.bits pk.length) && (plane (decodeWord w.bits pk i)).getLsbD p) := by
  by_cases hi : i < decodeCount w.bits pk.length
  · have hp : p < 128 ∨ (plane (decodeWord w.bits pk i)).getLsbD p = false :=
      (Nat.lt_or_ge p 128).imp_right fun h => BitVec.getLsbD_of_ge _ _ (le_trans (bits_le w) h)
    rw [decodeWords_getElem? hi]
    rcases hp with hp | hp <;> simp [hi, hp]
  · rw [List.getElem?_eq_none (by simpa using hi)]
    simp [hi]

/-- Settles O44: the port bit is the word's bit, and the word's bit is the pair's. -/
theorem decodePortsCarryTheWords : Obligations.DecodePortsCarryTheWords := by
  intro s w alt h
  have hports : s.ports = OutPorts.ofOutcome (.ok (.decoded w (decodeWords w.bits s.pk))) := by
    rw [State.ports_eq, stepOutcome_of_decodeSel h]; rfl
  have hm : s.ports.m = decodeCount w.bits s.pk.length := by rw [hports]; simp
  refine ⟨hm, fun i p => ?_⟩
  have hW := eight_dvd_bits w
  rw [hm, hports, ofOutcome_decoded_dv, ofOutcome_decoded_dz, ofOutcome_decoded_dx, decodeWords_port_getLsbD,
    decodeWords_port_getLsbD, decodeWords_port_getLsbD, decodeWord_value hW, decodeWord_highz hW, decodeWord_unknown hW,
    pairAt_eq, Bool.and_assoc, Bool.and_assoc, Bool.and_assoc]
  exact ⟨rfl, rfl, rfl⟩

/-- An element of the words of a DECODE is the word of its group. -/
theorem eq_decodeWord_of_getElem? {W : Nat} {pk : List PackedWord} {i : Nat} {f : FourStateWord W}
    (h : (decodeWords W pk)[i]? = some f) : f = decodeWord W pk i := by
  have hi : i < decodeCount W pk.length := by
    simpa using (List.getElem?_eq_some_iff.mp h).1
  rw [decodeWords_getElem? hi] at h
  exact (Option.some.inj h).symm

/-- The combination of a pair (R75), rendered (R88), is the glyph of the pair's state (R51). -/
theorem binChar_combine (a b : Bool) :
    binChar (a && !b) (b && !a) (a && b) = Claims.stateGlyph (pairState a b) := by
  cases a <;> cases b <;> rfl

/-- The binary character of a position of a decoded word is the glyph of its logical bit. -/
theorem decodeWord_binCharAt (w : Width) (pk : List PackedWord) (i : Nat) {p : Nat} (hp : p < w.bits) :
    (decodeWord w.bits pk i).binCharAt p =
      Claims.stateGlyph (pairState (Claims.pairAt pk (i * w.bits + p)).1 (Claims.pairAt pk (i * w.bits + p)).2) := by
  have hW := eight_dvd_bits w
  rw [FourStateWord.binCharAt, decodeWord_value hW, decodeWord_highz hW, decodeWord_unknown hW, pairAt_eq,
    ← binChar_combine]
  simp [hp]

/-- A word put on the operand planes is read back as the operand word (R27). -/
theorem operandWord_of_planes {w : Width} {u : State} {f : FourStateWord w.bits} (hv : u.opv = f.value.setWidth 128)
    (hz : u.opz = f.highz.setWidth 128) (hx : u.opx = f.unknown.setWidth 128) : operandWord w.bits u = f := by
  rw [operandWord, hv, hz, hx]
  simp [BitVec.setWidth_setWidth_of_le _ (bits_le w)]

/-- Settles O41: the word on the operand planes is that of its group, and its digit `j` the glyph of its position. -/
theorem decodeThenRenderReadsTheBits : Obligations.DecodeThenRenderReadsTheBits := by
  intro s t w ws i f u hexec ho hf hv hz hx
  have hws : ws = decodeWords w.bits s.pk := by
    rw [exec_eq, finish_eq, instrOf_op, instrOf_width, instrOf_alt] at hexec
    cases hexec
    cases ho
    rfl
  have hdw : f = decodeWord w.bits s.pk i := eq_decodeWord_of_getElem? (hws ▸ hf)
  refine ⟨binDigits f, ?_, length_binDigits f, fun j hj => ?_⟩
  · rw [exec_eq, instrOf_op, instrOf_width, instrOf_alt, resultOf, operandWord_of_planes hv hz hx]
    rfl
  · rw [binDigits_getElem? f hj, hdw, decodeWord_binCharAt w s.pk i (by omega)]
    obtain ⟨a, b⟩ := Claims.pairAt s.pk (i * w.bits + (w.bits - 1 - j))
    cases a <;> cases b <;> rfl

end Sys2Proof.Machine
end

section
/-! PROOFS. The characters of a text (R64, R88, R91) and the character ports that carry them (R27). -/

namespace Sys2Proof.Machine

theorem binChar_mem_alphabet : ∀ v z x : Bool, binChar v z x ∈ Claims.alphabet := by decide

theorem hexDigit_mem_hexGlyphs : ∀ vs : BitVec 4, hexDigit vs ∈ Claims.hexGlyphs := by decide

theorem hexChar_mem_alphabet (vs zs xs : BitVec 4) : hexChar vs zs xs ∈ Claims.alphabet := by
  unfold hexChar
  split_ifs
  · decide
  · decide
  · decide
  · decide
  · exact List.mem_append_left _ (hexDigit_mem_hexGlyphs vs)

/-- A text is over the alphabet when its digits and the mark of its alternate mode are. -/
theorem mem_alphabet_of_mem_mark_append {alt : Bool} {mark c : Char} {ds : List Char}
    (hmark : mark ∈ Claims.alphabet) (hds : ∀ d ∈ ds, d ∈ Claims.alphabet)
    (h : c ∈ (if alt then ['0', mark] else []) ++ ds) : c ∈ Claims.alphabet := by
  rcases List.mem_append.mp h with hmarked | hdigit
  · cases alt with
    | false => exact absurd hmarked List.not_mem_nil
    | true =>
      obtain rfl | rfl := List.mem_pair.mp hmarked
      · decide
      · exact hmark
  · exact hds c hdigit

/-- Every character of the binary string is of the alphabet, the mark of the alternate mode included. -/
theorem mem_alphabet_of_mem_renderBin {W : Nat} {alt : Bool} {f : FourStateWord W} {c : Char}
    (h : c ∈ renderBin alt f) : c ∈ Claims.alphabet := by
  refine mem_alphabet_of_mem_mark_append (by decide) (fun d hd => ?_) (renderBin_eq alt f ▸ h)
  obtain ⟨p, -, rfl⟩ := List.mem_map.mp hd
  exact binChar_mem_alphabet _ _ _

/-- Every character of the hexadecimal string is of the alphabet, the mark of the alternate mode included. -/
theorem mem_alphabet_of_mem_renderHex {W : Nat} {alt : Bool} {f : FourStateWord W} {c : Char}
    (h : c ∈ renderHex alt f) : c ∈ Claims.alphabet := by
  refine mem_alphabet_of_mem_mark_append (by decide) (fun d hd => ?_) (renderHex_eq alt f ▸ h)
  obtain ⟨k, -, rfl⟩ := List.mem_map.mp hd
  exact hexChar_mem_alphabet _ _ _

/-- A step that ends in a text ends in one over the alphabet (R64). -/
theorem mem_alphabet_of_step_text {s t : State} {cs : List Char} (h : step s = .next t)
    (ho : t.outcome = .ok (.text cs)) {c : Char} (hc : c ∈ cs) : c ∈ Claims.alphabet := by
  obtain ⟨w, alt, rfl | rfl⟩ := step_text h ho
  · exact mem_alphabet_of_mem_renderBin hc
  · exact mem_alphabet_of_mem_renderHex hc

/-- The code of a character of the alphabet fits a byte, so the port carries it whole. -/
theorem charCode_toNat_of_mem_alphabet : ∀ c ∈ Claims.alphabet, (charCode c).toNat = c.toNat := by
  have hcodes : Claims.alphabet.map (fun c => (charCode c).toNat) = Claims.alphabet.map Char.toNat := by decide
  exact List.map_inj_left.mp hcodes

/-- After a step the ports are those of the outcome it ended with (R117). -/
theorem ports_of_step {s t : State} (h : step s = .next t) : t.ports = OutPorts.ofOutcome t.outcome := by
  obtain rfl := step_eq_next_iff.mp h
  rw [State.withOutcome_ports, State.ports_eq, State.withOutcome_outcome]

/-- Settles O46: no character of a text is cut to 8 bits, since all are of the alphabet. -/
theorem renderPortsCarryTheText : Obligations.RenderPortsCarryTheText := by
  intro s t cs h ho
  rw [ports_of_step h, ho]
  refine ⟨ofOutcome_text_len cs, fun j c hj => ?_, ofOutcome_ok_past_len (.text cs)⟩
  have hc := mem_alphabet_of_step_text h ho (List.mem_of_getElem? hj)
  rw [ofOutcome_text_ch, hj]
  exact charCode_toNat_of_mem_alphabet c hc

end Sys2Proof.Machine
end

section
/-! PROOFS. No operation stores (R34, R46): an instruction replaces the outcome only, and a second step of the same inputs
replaces it by the same outcome. -/

namespace Sys2Proof.Machine

/-- What an instruction answers: the same inputs, with its result as the outcome. -/
theorem exec_eq_next_iff {i : Instr} {s t : State} :
    exec i s = .next t ↔ t = s.withOutcome (.ok (resultOf i.op i.width i.alt s)) := by
  rw [exec_eq, finish_eq, Host.Outcome.next.injEq, eq_comm]

/-- Settles O12: every instruction replaces the outcome and nothing else. -/
theorem instructionsChangeOnlyTheOutcome : Obligations.InstructionsChangeOnlyTheOutcome := by
  intro i s t h
  obtain rfl := exec_eq_next_iff.mp h
  exact s.sameInputs_withOutcome _

/-- Settles O14: the second step reads the same inputs, and the outcome it replaces is the one it gives. -/
theorem stepIsIdempotent : Obligations.StepIsIdempotent := by
  intro s t h
  obtain rfl := step_eq_next_iff.mp h
  refine ⟨s.sameInputs_withOutcome _, step_eq_next_iff.mpr ?_⟩
  rw [stepOutcome_withOutcome, State.withOutcome_withOutcome]

end Sys2Proof.Machine
end

section
/-! PROOFS. The bytes of the streams (R36, R41), by the bits of the planes. -/

namespace Sys2Proof.Machine

/-- Bit `p` of word `k`'s a-plane is bit `32k + p` of the a-planes (R39). -/
theorem aBit_of_getElem? {pk : List PackedWord} {k : Nat} {w : PackedWord} (hk : pk[k]? = some w) {p : Nat} (hp : p < 32) :
    aBit pk (32 * k + p) = w.getLsbD p := by
  have hword : (32 * k + p) / 32 = k := by omega
  have hbit : (32 * k + p) % 32 = p := by omega
  rw [aBit, hword, hbit, List.getD_eq_getElem?_getD, hk, Option.getD_some]

/-- Bit `p` of word `k`'s b-plane is bit `32k + p` of the b-planes (R39). -/
theorem bBit_of_getElem? {pk : List PackedWord} {k : Nat} {w : PackedWord} (hk : pk[k]? = some w) {p : Nat} (hp : p < 32) :
    bBit pk (32 * k + p) = w.getLsbD (32 + p) := by
  have hword : (32 * k + p) / 32 = k := by omega
  have hbit : (32 * k + p) % 32 = p := by omega
  rw [bBit, hword, hbit, List.getD_eq_getElem?_getD, hk, Option.getD_some]

/-- Settles O24: bit `i` of the byte is bit `8j + i` of the word's plane. -/
theorem streamBytesAreThePlanes : Obligations.StreamBytesAreThePlanes := by
  refine fun pk => ⟨length_streamBytesA pk, length_streamBytesB pk, fun k j w hk hj => ?_⟩
  have hplace (i : Nat) : 8 * (4 * k + j) + i = 32 * k + (8 * j + i) := by omega
  constructor
  · refine BitVec.eq_of_getLsbD_eq fun i hi => ?_
    rw [readByte_streamA_getLsbD pk _ i hi, hplace, aBit_of_getElem? hk (by omega)]
    simp [hi]
  · refine BitVec.eq_of_getLsbD_eq fun i hi => ?_
    rw [readByte_streamB_getLsbD pk _ i hi, hplace, bBit_of_getElem? hk (by omega)]
    simp [hi, Nat.add_assoc]

/-- A byte of stream A at or past `4N` is absent (R41). -/
theorem readByte_streamA_of_le {pk : List PackedWord} {a : Nat} (h : 4 * pk.length ≤ a) : readByte (streamA pk) a = 0#8 :=
  BitVec.eq_of_getLsbD_eq fun j hj => by
    rw [readByte_streamA_getLsbD pk a j hj, aBit_eq_false (by omega), BitVec.getLsbD_zero]

/-- A byte of stream B at or past `4N` is absent (R41). -/
theorem readByte_streamB_of_le {pk : List PackedWord} {a : Nat} (h : 4 * pk.length ≤ a) : readByte (streamB pk) a = 0#8 :=
  BitVec.eq_of_getLsbD_eq fun j hj => by
    rw [readByte_streamB_getLsbD pk a j hj, bBit_eq_false (by omega), BitVec.getLsbD_zero]

/-- A group of a DECODE reads past the end exactly when it is the last and `W` does not divide `32N` (R41). -/
theorem group_past_end_iff (w : Width) {N i : Nat} (hi : i < decodeCount w.bits N) :
    4 * N < (i + 1) * (w.bits / 8) ↔ i + 1 = decodeCount w.bits N ∧ ¬ w.bits ∣ 32 * N := by
  cases w <;> simp only [decodeCount, ceilDiv, Width.bits] at hi ⊢ <;> omega

/-- When `W` does not divide `32N`, width by width (R41). -/
theorem not_bits_dvd_iff (w : Width) (N : Nat) :
    ¬ w.bits ∣ 32 * N ↔ (w = .w64 ∧ N % 2 = 1) ∨ (w = .w128 ∧ N % 4 ≠ 0) := by
  cases w <;> simp [Width.bits] <;> omega

/-- Settles O25: absent bytes have no bit set, and a group is padded where the width does not divide the vector. -/
theorem absentBytesReadZero : Obligations.AbsentBytesReadZero := by
  refine ⟨fun pk a h => ⟨readByte_streamA_of_le h, readByte_streamB_of_le h⟩, fun w N i hi => ?_⟩
  rw [group_past_end_iff w hi, not_bits_dvd_iff]

end Sys2Proof.Machine
end

section
/-! PROOFS. The groups of a stream (R40, R41, R43), proved once for any byte-addressed space. -/

namespace Sys2Proof.Machine

/-- Group `i` of a byte-addressed space at width `W` (R40). -/
def groupOf (W : Nat) (m : Memory) (i : Nat) : BitVec W := (memRead m (i * (W / 8)) (W / 8)).setWidth W

theorem groupA_eq (W : Nat) (pk : List PackedWord) (i : Nat) : groupA W pk i = groupOf W (streamA pk) i := rfl

theorem groupB_eq (W : Nat) (pk : List PackedWord) (i : Nat) : groupB W pk i = groupOf W (streamB pk) i := rfl

/-- Bit `p` of a group is bit `p % 8` of its byte `p / 8`. -/
theorem groupOf_getLsbD {W : Nat} (hW : 8 ∣ W) (m : Memory) (i : Nat) {p : Nat} (hp : p < W) :
    (groupOf W m i).getLsbD p = (readByte m (i * (W / 8) + p / 8)).getLsbD (p % 8) := by
  have hbytes : p < 8 * (W / 8) := by omega
  rw [groupOf, BitVec.getLsbD_setWidth, memRead_getLsbD, decide_eq_true hp, decide_eq_true hbytes, Bool.true_and,
    Bool.true_and]

/-- Byte `t` of a group is the byte of the space at its place (R40). -/
theorem groupOf_byte {W : Nat} (hW : 8 ∣ W) (m : Memory) (i : Nat) {t : Nat} (ht : t < W / 8) :
    (groupOf W m i).extractLsb' (8 * t) 8 = readByte m (i * (W / 8) + t) := by
  refine BitVec.eq_of_getLsbD_eq fun j hj => ?_
  have hbyte : (8 * t + j) / 8 = t := by omega
  have hbit : (8 * t + j) % 8 = j := by omega
  rw [BitVec.getLsbD_extractLsb', groupOf_getLsbD hW m i (by omega), hbyte, hbit, decide_eq_true hj, Bool.true_and]

/-- Two consecutive groups, the second above the first, are one group of twice the width (R43). -/
theorem groupOf_double {W : Nat} (hW : 8 ∣ W) (m : Memory) (i : Nat) :
    groupOf (W + W) m i = groupOf W m (2 * i + 1) ++ groupOf W m (2 * i) := by
  obtain ⟨n, rfl⟩ := hW
  have hn : 8 * n / 8 = n := by omega
  have hnn : (8 * n + 8 * n) / 8 = n + n := by omega
  refine BitVec.eq_of_getLsbD_eq fun p hp => ?_
  rw [groupOf_getLsbD (by omega) m i hp, BitVec.getLsbD_append, hnn]
  split
  next hlo =>
    rw [groupOf_getLsbD (by omega) m _ hlo, hn]
    congr 2
    ring
  next hhi =>
    rw [groupOf_getLsbD (by omega) m _ (by omega), hn, show (p - 8 * n) % 8 = p % 8 by omega]
    have hbyte : p / 8 = n + (p - 8 * n) / 8 := by omega
    rw [hbyte]
    congr 2
    ring

/-- A group all of whose bytes read zero is zero (R41). -/
theorem groupOf_eq_zero {W : Nat} (hW : 8 ∣ W) {m : Memory} {i : Nat} (h : ∀ a, i * (W / 8) ≤ a → readByte m a = 0#8) :
    groupOf W m i = 0#W :=
  BitVec.eq_of_getLsbD_eq fun p hp => by
    rw [groupOf_getLsbD hW m i hp, h _ (Nat.le_add_right _ _), BitVec.getLsbD_zero, BitVec.getLsbD_zero]

/-- Settles O26: the operands are groups of the streams. -/
theorem groupsAreLittleEndian : Obligations.GroupsAreLittleEndian := by
  intro w pk i t ht
  rw [groupA_eq, groupB_eq]
  exact ⟨groupOf_byte (eight_dvd_bits w) _ i ht, groupOf_byte (eight_dvd_bits w) _ i ht⟩

/-- Settles O27: the widths are whole numbers of bytes, and bytes past the end read zero. -/
theorem doubleWidthGroupsConcatenate : Obligations.DoubleWidthGroupsConcatenate := by
  intro W hmem pk i
  have hW : 8 ∣ W := by revert W; decide
  simp only [groupA_eq, groupB_eq]
  refine ⟨groupOf_double hW _ i, groupOf_double hW _ i, fun h => ⟨?_, ?_⟩⟩
  · exact groupOf_eq_zero hW fun a ha => readByte_streamA_of_le (h.trans ha)
  · exact groupOf_eq_zero hW fun a ha => readByte_streamB_of_le (h.trans ha)

end Sys2Proof.Machine
end

section
/-! PROOFS. The whole-vector view (R39): a sum of 32-bit planes at their places has each plane's bits at its place. -/

namespace Sys2Proof.Machine

/-- The integer whose 32-bit digits are the first `n` planes of a sequence (R39). -/
def planeSum (f : Nat → BitVec 32) (n : Nat) : Nat := ∑ k ∈ Finset.range n, (f k).toNat * 2 ^ (32 * k)

theorem planeSum_succ (f : Nat → BitVec 32) (n : Nat) :
    planeSum f (n + 1) = 2 ^ (32 * n) * (f n).toNat + planeSum f n := by
  rw [planeSum, Finset.sum_range_succ, planeSum, Nat.add_comm, Nat.mul_comm]

/-- The sum has `32n` bits. -/
theorem planeSum_lt (f : Nat → BitVec 32) (n : Nat) : planeSum f n < 2 ^ (32 * n) := by
  induction n with
  | zero => simp [planeSum]
  | succ n ih =>
    have hplane : (f n).toNat + 1 ≤ 2 ^ 32 := (f n).isLt
    calc planeSum f (n + 1) = 2 ^ (32 * n) * (f n).toNat + planeSum f n := planeSum_succ f n
      _ < 2 ^ (32 * n) * ((f n).toNat + 1) := by rw [Nat.mul_succ]; omega
      _ ≤ 2 ^ (32 * n) * 2 ^ 32 := Nat.mul_le_mul_left _ hplane
      _ = 2 ^ (32 * (n + 1)) := by rw [← Nat.pow_add, Nat.mul_succ]

/-- Bit `q` of the sum is bit `q % 32` of plane `q / 32`. -/
theorem planeSum_testBit (f : Nat → BitVec 32) {n q : Nat} (hq : q < 32 * n) :
    (planeSum f n).testBit q = (f (q / 32)).getLsbD (q % 32) := by
  induction n with
  | zero => omega
  | succ n ih =>
    rw [planeSum_succ, Nat.testBit_two_pow_mul_add _ (planeSum_lt f n)]
    split
    next hlow => exact ih hlow
    next htop =>
      have hword : q / 32 = n := by omega
      have hbit : q % 32 = q - 32 * n := by omega
      rw [hword, hbit, BitVec.testBit_toNat]

/-- The integer of one plane, bits `c` to `c + 31` of every word, has that plane's bits, and zeros past the vector. -/
theorem planeSum_words_testBit (pk : List PackedWord) (c q : Nat) :
    (planeSum (fun k => (pk.getD k 0).extractLsb' c 32) pk.length).testBit q =
      (pk.getD (q / 32) 0#64).getLsbD (c + q % 32) := by
  rcases Nat.lt_or_ge q (32 * pk.length) with hq | hq
  · rw [planeSum_testBit _ hq, BitVec.getLsbD_extractLsb', decide_eq_true (by omega), Bool.true_and]
    rfl
  · rw [List.getD_eq_default _ _ (by omega), BitVec.getLsbD_zero]
    exact Nat.testBit_lt_two_pow ((planeSum_lt _ _).trans_le (Nat.pow_le_pow_right (by decide) hq))

/-- A byte with the bits `8a` to `8a + 7` of an integer is that integer's byte `a`. -/
theorem byte_toNat_of_testBit {b : Byte} {x a : Nat} (h : ∀ j, j < 8 → b.getLsbD j = x.testBit (8 * a + j)) :
    b.toNat = x / 2 ^ (8 * a) % 256 := by
  refine Nat.eq_of_testBit_eq fun j => ?_
  rw [show 256 = 2 ^ 8 from rfl, Nat.testBit_mod_two_pow, Nat.testBit_div_two_pow, BitVec.testBit_toNat]
  rcases Nat.lt_or_ge j 8 with hj | hj
  · rw [h j hj, decide_eq_true hj, Bool.true_and, Nat.add_comm]
  · rw [BitVec.getLsbD_of_ge _ _ hj, decide_eq_false (by omega), Bool.false_and]

/-- Settles O28: the integers, the streams and the pairs have the same bits. -/
theorem wholeVectorView : Obligations.WholeVectorView := by
  intro pk aInt bInt ha hb
  have hA : ∀ q, aInt.testBit q = aBit pk q := fun q => by
    rw [ha, aBit, ← Nat.zero_add (q % 32)]
    exact planeSum_words_testBit pk 0 q
  have hB : ∀ q, bInt.testBit q = bBit pk q := fun q => hb ▸ planeSum_words_testBit pk 32 q
  refine ⟨fun a => ⟨?_, ?_⟩, fun q _ => ?_⟩
  · exact byte_toNat_of_testBit fun j hj => by rw [readByte_streamA_getLsbD pk a j hj, hA]
  · exact byte_toNat_of_testBit fun j hj => by rw [readByte_streamB_getLsbD pk a j hj, hB]
  · rw [pairAt_eq, hA, hB]

end Sys2Proof.Machine
end

section
/-! PROOFS. Sequences of requests (R48, R113): every operation has the outcome of its own request. -/

namespace Sys2Proof.Machine

/-- The outcome of a request, which is the same in every state (R17). -/
def Request.outcome (r : Request) : OpOutcome := stepOutcome (State.reset.present r)

/-- A request performed in any state ends in the request's own outcome. -/
theorem perform_eq_outcome (r : Request) (s : State) :
    perform r s = .next ((s.present r).withOutcome r.outcome) := perform_eq r s

/-- A sequence completes from every state, with each request's own outcome (R48). -/
theorem performAll_outcomes (rs : List Request) (s : State) :
    ∃ t, performAll rs s = .next (rs.map Request.outcome, t) := by
  induction rs generalizing s with
  | nil => exact ⟨s, rfl⟩
  | cons r rs ih =>
    obtain ⟨t, ht⟩ := ih ((s.present r).withOutcome r.outcome)
    refine ⟨t, ?_⟩
    rw [performAll, perform_eq_outcome]
    simp only [ht, State.withOutcome_outcome, List.map_cons]

/-- Settles O49: the outcome at place `k` is that of request `k`, and so is the outcome of that request alone. -/
theorem sequenceOutcomesAreIndependent : Obligations.SequenceOutcomesAreIndependent := by
  intro rs s
  obtain ⟨t, ht⟩ := performAll_outcomes rs s
  refine ⟨_, t, ht, List.length_map _, fun k r o hr ho u v hv => ?_⟩
  rw [List.getElem?_map, hr, Option.map_some, Option.some.injEq] at ho
  rw [perform_eq_outcome, Host.Outcome.next.injEq] at hv
  rw [← hv, State.withOutcome_outcome, ho]

end Sys2Proof.Machine
end

section
/-! PROOFS. The operation selector (R57 to R62): its three fields, what their codes name, and the round trip of the decoder and
the encoder. -/

namespace Sys2Proof

@[simp] theorem opField_append (op : BitVec 2) (alt : Bool) (wsel : BitVec 3) :
    opField (op ++ BitVec.ofBool alt ++ wsel) = op := by
  revert op alt wsel; decide

@[simp] theorem altField_append (op : BitVec 2) (alt : Bool) (wsel : BitVec 3) :
    altField (op ++ BitVec.ofBool alt ++ wsel) = alt := by
  revert op alt wsel; decide

@[simp] theorem wselField_append (op : BitVec 2) (alt : Bool) (wsel : BitVec 3) :
    wselField (op ++ BitVec.ofBool alt ++ wsel) = wsel := by
  revert op alt wsel; decide

/-- A selector is its three fields (R57). -/
theorem append_selector_fields : ∀ sel : BitVec 6, opField sel ++ BitVec.ofBool (altField sel) ++ wselField sel = sel := by decide

@[simp] theorem opOfCode_opCode (o : Op) : opOfCode (opCode o) = o := by cases o <;> rfl

/-- Every op code names an operation, and it is that operation's own (R58). -/
@[simp] theorem opCode_opOfCode : ∀ c : BitVec 2, opCode (opOfCode c) = c := by decide

/-- A width is named by its own code and by no other (R59). -/
theorem widthOfCode_eq_some_iff {c : BitVec 3} {w : Width} : widthOfCode c = some w ↔ c = widthCode w := by
  revert c; cases w <;> decide

/-- The codes that name no width are 101, 110 and 111 (R61). -/
theorem widthOfCode_eq_none_iff : ∀ {c : BitVec 3}, widthOfCode c = none ↔ 5 ≤ c.toNat := by decide

/-- A selector whose `wsel` names a width decodes to the instruction of its fields. -/
theorem decodeSel_of_widthOfCode {sel : BitVec 6} {w : Width} (h : widthOfCode (wselField sel) = some w) :
    decodeSel sel = .instr (instrOf (opOfCode (opField sel)) w (altField sel)) := by
  rw [decodeSel, h]

/-- A selector whose `wsel` names no width decodes to the configuration error with that `wsel`. -/
theorem decodeSel_of_widthOfCode_eq_none {sel : BitVec 6} (h : widthOfCode (wselField sel) = none) :
    decodeSel sel = .unsupportedWidth (wselField sel) := by
  rw [decodeSel, h]

/-- The selector made of the codes of an operation and a width decodes to their instruction. -/
theorem decodeSel_codes (o : Op) (w : Width) (alt : Bool) :
    decodeSel (opCode o ++ BitVec.ofBool alt ++ widthCode w) = .instr (instrOf o w alt) := by
  have hw : widthOfCode (wselField (opCode o ++ BitVec.ofBool alt ++ widthCode w)) = some w := by
    rw [wselField_append, widthOfCode_eq_some_iff]
  rw [decodeSel_of_widthOfCode hw, opField_append, altField_append, opOfCode_opCode]

/-- An instruction is the one of its operation, its width and its `alt` bit. -/
theorem instrOf_projections (i : Instr) : instrOf i.op i.width i.alt = i := by cases i <;> rfl

/-- Decoding undoes encoding. -/
theorem decodeSel_encode (i : Instr) : decodeSel (encode i) = .instr i := by
  rw [encode, decodeSel_codes, instrOf_projections]

/-- Encoding undoes decoding: each field of the selector is the code of what the decoder read from it. -/
theorem encode_of_decodeSel {sel : BitVec 6} {i : Instr} (h : decodeSel sel = .instr i) : encode i = sel := by
  cases hw : widthOfCode (wselField sel) with
  | none =>
    rw [decodeSel_of_widthOfCode_eq_none hw] at h
    cases h
  | some w =>
    rw [decodeSel_of_widthOfCode hw] at h
    cases h
    rw [encode, Machine.instrOf_op, Machine.instrOf_alt, Machine.instrOf_width, opCode_opOfCode,
      ← widthOfCode_eq_some_iff.mp hw, append_selector_fields]

/-- Settles O2: the decoder and the encoder undo each other, so a reserved selector, which decodes to no instruction, encodes
none. -/
theorem selectorRoundTrip : Obligations.SelectorRoundTrip := by
  refine ⟨decodeSel_encode, fun _ _ => encode_of_decodeSel, ?_⟩
  rintro sel wsel h i rfl
  rw [decodeSel_encode] at h
  cases h

/-- Settles O1: each supported selector is made of an operation's code and a width's, and each reserved one has a `wsel` that
names no width. -/
theorem selectorCodesDecode : Obligations.SelectorCodesDecode := by
  refine ⟨fun alt => ?_, fun op alt wsel h => ?_⟩
  · exact ⟨decodeSel_codes .decode .w8 alt, decodeSel_codes .decode .w16 alt, decodeSel_codes .decode .w32 alt,
      decodeSel_codes .decode .w64 alt, decodeSel_codes .decode .w128 alt,
      decodeSel_codes .resolve .w8 alt, decodeSel_codes .resolve .w16 alt, decodeSel_codes .resolve .w32 alt,
      decodeSel_codes .resolve .w64 alt, decodeSel_codes .resolve .w128 alt,
      decodeSel_codes .renderBin .w8 alt, decodeSel_codes .renderBin .w16 alt, decodeSel_codes .renderBin .w32 alt,
      decodeSel_codes .renderBin .w64 alt, decodeSel_codes .renderBin .w128 alt,
      decodeSel_codes .renderHex .w8 alt, decodeSel_codes .renderHex .w16 alt, decodeSel_codes .renderHex .w32 alt,
      decodeSel_codes .renderHex .w64 alt, decodeSel_codes .renderHex .w128 alt⟩
  · have hw : widthOfCode (wselField (op ++ BitVec.ofBool alt ++ wsel)) = none := by
      rwa [wselField_append, widthOfCode_eq_none_iff]
    rw [decodeSel_of_widthOfCode_eq_none hw, wselField_append]

/-- The two decoders agree on each of the 64 selectors. -/
theorem decodeByTable_eq_decodeSel : ∀ sel : BitVec 6, decodeByTable sel = decodeSel sel := by decide

/-- The rows of the opcode table fix the same bits, each pair to different patterns. -/
theorem opcodeRows_pairwise : opcodeRows.Pairwise fun r q => r.mask = q.mask ∧ r.pattern ≠ q.pattern := by decide

/-- Settles O4: a selector that matched two rows would give their one mask two patterns. -/
theorem tableDecoderAgrees : Obligations.TableDecoderAgrees := by
  refine ⟨decodeByTable_eq_decodeSel, opcodeRows_pairwise.imp ?_⟩
  rintro r q ⟨hmask, hpattern⟩ sel ⟨hr, hq⟩
  exact hpattern (hr.symm.trans ((congrArg (sel &&& ·) hmask).trans hq))

end Sys2Proof
end

section
/-! PROOFS. What the selector's fields do to the outcome: a reserved `wsel` ends in the fault (R61, R104), and `alt` adds the
renderers' mark (R60). -/

namespace Sys2Proof.Machine

/-- A step ends in the fault exactly when `wsel` names no width, and the fault carries it (R104). -/
theorem stepOutcome_eq_unsupportedWidth_iff {s : State} {wsel : BitVec 3} :
    stepOutcome s = .unsupportedWidth wsel ↔ wsel = wselField s.sel ∧ 5 ≤ (wselField s.sel).toNat := by
  rw [← widthOfCode_eq_none_iff, stepOutcome]
  cases widthOfCode (wselField s.sel) <;> simp [eq_comm]

/-- Of the 64 selectors, 24 have a `wsel` of 5 or more: each op and `alt` with 101, 110 and 111 (R61). -/
theorem count_reserved_selectors :
    ((List.range 64).filter fun n => decide (5 ≤ (wselField (BitVec.ofNat 6 n)).toNat)).length = 24 := by decide

/-- Settles O3: the outcome of a step is the fault for the reserved `wsel` codes only. -/
theorem reservedSelectorsFault : Obligations.ReservedSelectorsFault := by
  refine ⟨fun s t h => ?_, count_reserved_selectors⟩
  obtain rfl := step_eq_next_iff.mp h
  simp only [State.withOutcome_outcome, stepOutcome_eq_unsupportedWidth_iff]
  exact ⟨⟨fun ⟨_, _, hw⟩ => hw, fun hw => ⟨_, rfl, hw⟩⟩, fun _ hf => hf.1⟩

/-- What the instruction of an operation, a width and an `alt` bit answers. -/
theorem exec_instrOf (o : Op) (w : Width) (alt : Bool) (s : State) :
    exec (instrOf o w alt) s = .next { s with outcome := .ok (resultOf o w alt s) } := by
  rw [exec_eq, instrOf_op, instrOf_width, instrOf_alt]
  rfl

/-- Settles O5: only the renderers' results read `alt`, and there it adds the mark in front. -/
theorem altOnlyAddsThePrefix : Obligations.AltOnlyAddsThePrefix := by
  intro s w
  simp only [exec_instrOf]
  exact ⟨rfl, rfl, ⟨binDigits (operandWord w.bits s), rfl, rfl⟩, ⟨hexDigits (operandWord w.bits s), rfl, rfl⟩⟩

/-- Settles O40: a text of a step is over the alphabet, and the codes are compared one by one. -/
theorem textsKeepToTheAlphabet : Obligations.TextsKeepToTheAlphabet := by
  refine ⟨fun s t cs h ho c hc => mem_alphabet_of_step_text h ho hc, ?_⟩
  decide

end Sys2Proof.Machine
end

section
/-! PROOFS. The pair codes of RESOLVE's states on the port `st` (R27, R63). -/

namespace Sys2Proof.Machine

/-- Every state is that of a pair, and its code is the pair, `a` in bit 0 and `b` in bit 1 (R63). -/
theorem stateCode_pairState (a b : Bool) :
    (stateCode (pairState a b)).getLsbD 0 = a ∧ (stateCode (pairState a b)).getLsbD 1 = b := by
  cases a <;> cases b <;> decide

/-- The state of a position below `W` of the operand word is that of the operand planes' bits (R27, R68). -/
theorem operandWord_stateAt {W p : Nat} (s : State) (hp : p < W) :
    (operandWord W s).stateAt p = resolveBit (s.opv.getLsbD p) (s.opz.getLsbD p) (s.opx.getLsbD p) := by
  simp [FourStateWord.stateAt, operandWord, hp]

/-- Bit `2p + j` of `st`, for `j` below 2, is bit `j` of the code of position `p`. -/
theorem packStates_resolveWord_getLsbD {w : Width} {f : FourStateWord w.bits} {p j : Nat} (hp : p < w.bits) (hj : j < 2) :
    (packStates (resolveWord f)).getLsbD (2 * p + j) = (stateCode (f.stateAt p)).getLsbD j := by
  have hpos : (2 * p + j) / 2 = p := by omega
  have hbit : (2 * p + j) % 2 = j := by omega
  rw [packStates_getLsbD _ (by simpa using bits_le w), hpos, hbit, resolveWord_getElem? f hp]
  rfl

/-- The bits of `st` past the code of the last position read 0 (log entry 11). -/
theorem packStates_resolveWord_of_le {w : Width} {f : FourStateWord w.bits} {q : Nat} (hq : 2 * w.bits ≤ q) :
    (packStates (resolveWord f)).getLsbD q = false := by
  have hnone : (resolveWord f)[q / 2]? = none := by simp; omega
  rw [packStates_getLsbD _ (by simpa using bits_le w), hnone]
  rfl

/-- Settles O45: `st` holds the code of each position's state, and a state's code is its pair. -/
theorem resolvePortsCarryTheCodes : Obligations.ResolvePortsCarryTheCodes := by
  intro s w alt h
  have hst : s.ports.st = packStates (resolveWord (operandWord w.bits s)) := by
    rw [State.ports_eq, stepOutcome_of_decodeSel h, resultOf, ofOutcome_states_st]
  rw [hst]
  refine ⟨fun p hp a b hab => ?_, fun q => packStates_resolveWord_of_le⟩
  have hcode (j : Nat) (hj : j < 2) :=
    packStates_resolveWord_getLsbD (f := operandWord w.bits s) hp hj
  rw [operandWord_stateAt s hp, ← hab] at hcode
  obtain ⟨ha, hb⟩ := stateCode_pairState a b
  exact ⟨(hcode 0 (by decide)).trans ha, (hcode 1 (by decide)).trans hb⟩

end Sys2Proof.Machine
end

section
/-! PROOFS. Programs whose lines make sense (R65, R66): the results of the lines performed have the shapes that the check
reads from the program, so every line presents a request and every fault is that of a reserved `wsel`. -/

namespace Sys2Proof.Machine

/-- The results so far fit the shapes the check keeps: a DECODE result the check looks up is there, with its width and its word
count, and every fault among the results has a reserved `wsel`. -/
structure ResultsFit (ctx : Shapes) (env : Results) : Prop where
  decoded : ∀ {name w m}, ctx.lookup name = some (some (w, m)) →
    ∃ ws : List (FourStateWord w.bits), env.lookup name = some (.ok (.decoded w ws)) ∧ ws.length = m
  reserved : ∀ {wsel}, .unsupportedWidth wsel ∈ env.map (·.2) → 5 ≤ wsel.toNat

theorem resultsFit_nil : ResultsFit [] [] := ⟨nofun, nofun⟩

/-- An element that the check lets through is one of a shape it keeps. -/
theorem lookup_of_lineWf {ctx : Shapes} {l : Line} {name : String} {i : Nat} (h : lineWf ctx l = true)
    (hl : l.operand = .element name i) : ∃ w m, ctx.lookup name = some (some (w, m)) ∧ i < m := by
  rw [lineWf, hl] at h
  cases hop : opOfCode (opField l.sel) <;> simp only [hop] at h
  case decode => cases h
  all_goals
    split at h
    next w m hctx => exact ⟨w, m, hctx, of_decide_eq_true (Bool.and_eq_true_iff.mp h).1⟩
    next => cases h

/-- A DECODE result has an element at each place below its word count. -/
theorem elementOf_isSome {env : Results} {name : String} {i : Nat} {w : Width} {ws : List (FourStateWord w.bits)}
    (h : env.lookup name = some (.ok (.decoded w ws))) (hi : i < ws.length) : (elementOf env name i).isSome = true := by
  simp [elementOf, h, hi]

/-- A line that makes sense presents a request. -/
theorem request_of_lineWf {ctx : Shapes} {env : Results} {l : Line} (hfit : ResultsFit ctx env)
    (h : lineWf ctx l = true) : ∃ r, l.request env = some r := by
  rw [← Option.isSome_iff_exists, Line.request]
  cases hl : l.operand with
  | packed pk => rfl
  | word v z x => rfl
  | element name i =>
    obtain ⟨w, m, hctx, hi⟩ := lookup_of_lineWf h hl
    obtain ⟨ws, henv, hlen⟩ := hfit.decoded hctx
    rw [Option.isSome_map]
    exact elementOf_isSome henv (hlen ▸ hi)

/-- A line with the shape of a DECODE result ends in one, of that width and word count (R65). -/
theorem outcome_of_shape {l : Line} {env : Results} {r : Request} {w : Width} {m : Nat} (hs : l.shape = some (w, m))
    (hr : l.request env = some r) :
    ∃ ws : List (FourStateWord w.bits), r.outcome = .ok (.decoded w ws) ∧ ws.length = m := by
  unfold Line.shape at hs
  split at hs
  next pk w' hl hw hop =>
    cases hs
    rw [Line.request, hl] at hr
    cases hr
    refine ⟨decodeWords w.bits pk, ?_, length_decodeWords _ _⟩
    simp only [Request.outcome, stepOutcome, State.present_sel, hw, hop]
    rfl
  next => cases hs

/-- A request ends in a fault for a reserved `wsel` only (R104). -/
theorem Request.outcome_reserved {r : Request} {wsel : BitVec 3} (h : r.outcome = .unsupportedWidth wsel) :
    5 ≤ wsel.toNat := by
  obtain ⟨rfl, hw⟩ := stepOutcome_eq_unsupportedWidth_iff.mp h
  exact hw

/-- Performing a line keeps the results and the shapes together. -/
theorem ResultsFit.cons {ctx : Shapes} {env : Results} {l : Line} {r : Request} (hfit : ResultsFit ctx env)
    (hr : l.request env = some r) : ResultsFit ((l.dst, l.shape) :: ctx) ((l.dst, r.outcome) :: env) where
  decoded {name w m} h := by
    rw [List.lookup_cons] at h ⊢
    split at h
    next =>
      obtain ⟨ws, ho, hlen⟩ := outcome_of_shape (Option.some.inj h) hr
      exact ⟨ws, congrArg some ho, hlen⟩
    next => exact hfit.decoded h
  reserved {wsel} h := by
    rw [List.map_cons, List.mem_cons] at h
    exact h.elim (fun ho => Request.outcome_reserved ho.symm) hfit.reserved

/-- A program that passes the check performs all its lines, and its results fit the shapes of some check to the end. -/
theorem performLines_of_programWf {ctx : Shapes} {env : Results} {ls : List Line} (hwf : programWf ctx ls = true)
    (hfit : ResultsFit ctx env) (s : State) :
    ∃ ctx' env' t, performLines ls env s = .next (env', t) ∧ ResultsFit ctx' env' := by
  induction ls generalizing ctx env s with
  | nil => exact ⟨ctx, env, s, rfl, hfit⟩
  | cons l ls ih =>
    rw [programWf, Bool.and_eq_true_iff] at hwf
    obtain ⟨hl, hls⟩ := hwf
    obtain ⟨r, hr⟩ := request_of_lineWf hfit hl
    simp only [performLines, hr, perform_eq_outcome]
    exact ih hls (hfit.cons hr) _

/-- The first fault of some outcomes is one of them. -/
theorem mem_of_firstFault {os : List OpOutcome} {wsel : BitVec 3} (h : firstFault os = some wsel) :
    .unsupportedWidth wsel ∈ os := by
  induction os with
  | nil => cases h
  | cons o os ih =>
    cases o with
    | ok r => exact List.mem_cons_of_mem _ (ih h)
    | unsupportedWidth v => exact Option.some.inj h ▸ List.mem_cons_self

/-- Settles O51: a program that passes the check ends as the outcomes of its lines do. -/
theorem wellFormedProgramsRun : Obligations.WellFormedProgramsRun := by
  intro ls s hwf
  obtain ⟨ctx, env, t, hrun, hfit⟩ := performLines_of_programWf hwf resultsFit_nil s
  rw [runProgram, hrun]
  simp only [sequenceEnd]
  cases hf : firstFault (env.map (·.2)).reverse with
  | none => exact .inl ⟨t, rfl⟩
  | some wsel => exact .inr ⟨wsel, hfit.reserved (List.mem_reverse.mp (mem_of_firstFault hf)), rfl⟩

end Sys2Proof.Machine
end

section
/-! PROOFS. The resolver (R67 to R72): the priority rule and its truth table, the states RESOLVE answers, and the plane
form. -/

namespace Sys2Proof.Machine

/-- `resolve_bit` follows the priority rule (R68). -/
theorem stateReads_resolveBit (v z x : Bool) : Claims.StateReads v z x (resolveBit v z x) := by
  refine ⟨?_, ?_, ?_, ?_⟩
  · rintro rfl; rfl
  · rintro rfl rfl; rfl
  · rintro rfl rfl rfl; rfl
  · rintro rfl rfl rfl; rfl

/-- An element of the resolution of a word is the state of its position. -/
theorem eq_stateAt_of_getElem? {W p : Nat} {f : FourStateWord W} {st : State4} (h : (resolveWord f)[p]? = some st) :
    p < W ∧ st = f.stateAt p := by
  have hp : p < W := by simpa using (List.getElem?_eq_some_iff.mp h).1
  rw [resolveWord_getElem? f hp] at h
  exact ⟨hp, (Option.some.inj h).symm⟩

/-- RESOLVE at any width of the set answers the states of the operand word (R67). -/
theorem resolves_instrOf (w : Width) (alt : Bool) : Claims.Resolves w.bits (instrOf .resolve w alt) := by
  intro s
  refine ⟨resolveWord (operandWord w.bits s), exec_instrOf .resolve w alt s, length_resolveWord _, fun p st h => ?_⟩
  obtain ⟨hp, rfl⟩ := eq_stateAt_of_getElem? h
  rw [operandWord_stateAt s hp]
  exact stateReads_resolveBit _ _ _

/-- Settles O29: the five instructions are RESOLVE at the five widths. -/
theorem resolveAnswersTheStates : Obligations.ResolveAnswersTheStates :=
  fun alt => ⟨resolves_instrOf .w8 alt, resolves_instrOf .w16 alt, resolves_instrOf .w32 alt, resolves_instrOf .w64 alt,
    resolves_instrOf .w128 alt⟩

/-- Settles O30: each row of the table is one evaluation of `resolve_bit`. -/
theorem resolveTruthTable : Obligations.ResolveTruthTable :=
  ⟨rfl, rfl, rfl, rfl, rfl, rfl, rfl, rfl⟩

/-- Settles O31: an element is the state of its position, which is `resolve_bit` of the position's three bits. -/
theorem resolutionIsPerPosition : Obligations.ResolutionIsPerPosition := by
  intro W W' f g p q hp hq hv hz hx
  rw [resolveWord_getElem? f hp, resolveWord_getElem? g hq, FourStateWord.stateAt, FourStateWord.stateAt, hv, hz, hx]

/-- The mask of the positions in a state (R72). -/
def FourStateWord.maskOf {W : Nat} (f : FourStateWord W) : State4 → BitVec W
  | .z => f.isZ
  | .x => f.isX
  | .one => f.is1
  | .zero => f.is0

/-- The bits of each mask, as `resolve_bit` decides them: Z alone, X without Z, and the value without either (R68, R72). -/
theorem resolveBit_eq_iff : ∀ v z x : Bool,
    (z = true ↔ resolveBit v z x = .z) ∧ ((x && !z) = true ↔ resolveBit v z x = .x) ∧
    ((v && !z && !x) = true ↔ resolveBit v z x = .one) ∧ ((!v && !z && !x) = true ↔ resolveBit v z x = .zero) := by
  decide

/-- Bit `p` of a state's mask says whether position `p` is in that state (R72). -/
theorem maskOf_getLsbD_iff {W p : Nat} (f : FourStateWord W) (hp : p < W) (st : State4) :
    (f.maskOf st).getLsbD p = true ↔ f.stateAt p = st := by
  obtain ⟨hz, hx, h1, h0⟩ := resolveBit_eq_iff (f.value.getLsbD p) (f.highz.getLsbD p) (f.unknown.getLsbD p)
  rw [FourStateWord.stateAt]
  cases st with
  | z => exact hz
  | x => simpa [FourStateWord.maskOf, FourStateWord.isX, hp] using hx
  | one => simpa [FourStateWord.maskOf, FourStateWord.is1, hp] using h1
  | zero => simpa [FourStateWord.maskOf, FourStateWord.is0, hp] using h0

/-- The masks of two states are disjoint: a position is in one state only. -/
theorem maskOf_and_maskOf {W : Nat} (f : FourStateWord W) {st st' : State4} (h : st ≠ st') :
    f.maskOf st &&& f.maskOf st' = 0 := by
  refine BitVec.eq_of_getLsbD_eq fun p hp => ?_
  have hnot : ¬ ((f.maskOf st &&& f.maskOf st').getLsbD p = true) := by
    rw [BitVec.getLsbD_and, Bool.and_eq_true, maskOf_getLsbD_iff f hp, maskOf_getLsbD_iff f hp]
    exact fun ⟨hst, hst'⟩ => h (hst.symm.trans hst')
  simpa using hnot

/-- The four masks cover the word: every position is in one of the states. -/
theorem maskOf_or_eq_allOnes {W : Nat} (f : FourStateWord W) :
    f.maskOf .z ||| f.maskOf .x ||| f.maskOf .one ||| f.maskOf .zero = BitVec.allOnes W := by
  refine BitVec.eq_of_getLsbD_eq fun p hp => ?_
  have hmask : (f.maskOf (f.stateAt p)).getLsbD p = true := (maskOf_getLsbD_iff f hp _).mpr rfl
  cases hst : f.stateAt p <;> rw [hst] at hmask <;> simp [hp, hmask]

/-- Settles O32: the four masks are those of the four states. -/
theorem planeFormTellsTheStates : Obligations.PlaneFormTellsTheStates := by
  intro W f
  refine ⟨fun p hp => ?_, ?_⟩
  · have hbit := maskOf_getLsbD_iff f hp
    exact ⟨hbit .z, hbit .x, hbit .one, hbit .zero⟩
  · have hdisjoint (st st' : State4) (h : st ≠ st') := maskOf_and_maskOf f h
    exact ⟨hdisjoint .z .x nofun, hdisjoint .z .one nofun, hdisjoint .z .zero nofun, hdisjoint .x .one nofun,
      hdisjoint .x .zero nofun, hdisjoint .one .zero nofun, maskOf_or_eq_allOnes f⟩

end Sys2Proof.Machine
end

section
/-! PROOFS. DECODE (R73 to R85): the words it answers, bit by bit, and how many; and what the combination of two operands keeps
of them (R75). -/

namespace Sys2Proof.Machine

/-- The words of a DECODE answer the pairs of their logical bits (R74 to R77). -/
theorem decodedAs_decodeWords (w : Width) (pk : List PackedWord) : Claims.DecodedAs w.bits pk (decodeWords w.bits pk) := by
  refine ⟨length_decodeWords w.bits pk, fun i f hf p hp => ?_⟩
  have hW := eight_dvd_bits w
  rw [eq_decodeWord_of_getElem? hf, decodeWord_value hW, decodeWord_highz hW, decodeWord_unknown hW, pairAt_eq,
    decide_eq_true hp]
  simp only [Bool.true_and, and_self]

/-- DECODE at any width of the set answers the words of the packed vector (R73). -/
theorem decodes_instrOf (w : Width) (alt : Bool) : Claims.Decodes w (instrOf .decode w alt) :=
  fun s => ⟨decodeWords w.bits s.pk, exec_instrOf .decode w alt s, decodedAs_decodeWords w s.pk⟩

/-- Settles O16: the five instructions are DECODE at the five widths. -/
theorem decodeAnswersTheWords : Obligations.DecodeAnswersTheWords :=
  fun alt => ⟨decodes_instrOf .w8 alt, decodes_instrOf .w16 alt, decodes_instrOf .w32 alt, decodes_instrOf .w64 alt,
    decodes_instrOf .w128 alt⟩

/-- Settles O17: the formula is the model's count, and at each width it is a division by a numeral. -/
theorem decodeCounts : Obligations.DecodeCounts := by
  intro w pk
  refine ⟨length_decodeWords w.bits pk, (length_decodeWords w.bits pk).trans ?_⟩
  cases w <;> simp only [decodeCount, ceilDiv, Width.bits] <;> omega

/-- Settles O18: the instruction completes, and it has no group to answer. -/
theorem decodeOfNothingIsEmpty : Obligations.DecodeOfNothingIsEmpty := by
  intro w alt s hpk
  have hwords : decodeWords w.bits s.pk = [] := by rw [hpk]; cases w <;> rfl
  rw [exec_instrOf, resultOf, hwords]

/-- An element of a DECODE result that a step gives is a word of the DECODE. -/
theorem getElem?_decodeWords_of_decodesTo {s : State} {w : Width} {i : Nat} {f : FourStateWord w.bits}
    (h : Claims.DecodesTo s w i f) : (decodeWords w.bits s.pk)[i]? = some f := by
  obtain ⟨t, ws, hstep, ho, hf⟩ := h
  rwa [step_decoded hstep ho] at hf

/-- An element of a DECODE result that a step gives is the combination of its two operands (R75). -/
theorem eq_combine_of_decodesTo {s : State} {w : Width} {i : Nat} {f : FourStateWord w.bits} (h : Claims.DecodesTo s w i f) :
    f = combine (groupA w.bits s.pk i) (groupB w.bits s.pk i) :=
  eq_decodeWord_of_getElem? (getElem?_decodeWords_of_decodesTo h)

/-- No pair of bits is combined into two planes, and only `(0, 0)` into none (R75). -/
theorem combine_planes {W : Nat} (a b : BitVec W) :
    (combine a b).value &&& (combine a b).highz = 0 ∧ (combine a b).value &&& (combine a b).unknown = 0 ∧
      (combine a b).highz &&& (combine a b).unknown = 0 ∧
      (combine a b).value ||| (combine a b).highz ||| (combine a b).unknown = a ||| b := by
  have hbits : ∀ x y : Bool, ((x && !y) && (y && !x)) = false ∧ ((x && !y) && (x && y)) = false ∧
      ((y && !x) && (x && y)) = false ∧ ((x && !y) || (y && !x) || (x && y)) = (x || y) := by decide
  refine ⟨BitVec.eq_of_getLsbD_eq fun p hp => ?_, BitVec.eq_of_getLsbD_eq fun p hp => ?_,
    BitVec.eq_of_getLsbD_eq fun p hp => ?_, BitVec.eq_of_getLsbD_eq fun p hp => ?_⟩
  all_goals obtain ⟨hvz, hvx, hzx, hor⟩ := hbits (a.getLsbD p) (b.getLsbD p)
  · simpa [combine, hp] using hvz
  · simpa [combine, hp] using hvx
  · simpa [combine, hp] using hzx
  · simpa [combine, hp] using hor

/-- Settles O19: a word is a combination, and a combination's planes are disjoint and cover its operands. -/
theorem decodedPlanesAreDisjoint : Obligations.DecodedPlanesAreDisjoint := by
  intro s w i f h
  rw [eq_combine_of_decodesTo h]
  exact combine_planes _ _

/-- The combination of a pair (R75) resolves (R68) to the state the pair encodes (R51). -/
theorem resolveBit_combine : ∀ a b : Bool, resolveBit (a && !b) (b && !a) (a && b) = pairState a b := by decide

/-- Past the end of the vector the pair is `(0, 0)` (R77). -/
theorem pairAt_of_le {pk : List PackedWord} {q : Nat} (h : 32 * pk.length ≤ q) : Claims.pairAt pk q = (false, false) := by
  rw [pairAt_eq, aBit_eq_false h, bBit_eq_false h]

/-- Settles O20: a position resolves to its pair's state, which past the end is that of `(0, 0)`. -/
theorem decodedWordsAgreeWithPairEncoding : Obligations.DecodedWordsAgreeWithPairEncoding := by
  intro s w i f h p hp
  obtain ⟨hv, hz, hx⟩ := (decodedAs_decodeWords w s.pk).2 i f (getElem?_decodeWords_of_decodesTo h) p hp
  rw [hv, hz, hx, resolveBit_combine]
  refine ⟨fun _ => rfl, fun hend => ?_⟩
  rw [pairAt_of_le hend]
  rfl

/-- With every b-plane zero, `b` of every logical bit is 0. -/
theorem bBit_of_bPlane_eq_zero {pk : List PackedWord} (h : ∀ x ∈ pk, x.extractLsb' 32 32 = 0#32) (q : Nat) :
    bBit pk q = false := by
  by_cases hq : q / 32 < pk.length
  · have hplane := h _ (List.getElem_mem hq)
    have hbit : (pk[q / 32].extractLsb' 32 32).getLsbD (q % 32) = false := by rw [hplane, BitVec.getLsbD_zero]
    have hlt : q % 32 < 32 := Nat.mod_lt _ (by decide)
    rw [bBit, List.getD_eq_getElem _ _ hq]
    simpa [hlt] using hbit
  · exact bBit_eq_false (by omega)

/-- With every b-plane zero, the operands of stream B are zero. -/
theorem groupB_of_bPlane_eq_zero {W : Nat} (hW : 8 ∣ W) {pk : List PackedWord}
    (h : ∀ x ∈ pk, x.extractLsb' 32 32 = 0#32) (i : Nat) : groupB W pk i = 0 :=
  BitVec.eq_of_getLsbD_eq fun p _ => by
    rw [groupB_getLsbD hW, bBit_of_bPlane_eq_zero h, Bool.and_false]
    exact BitVec.getLsbD_zero.symm

/-- The combination of an operand of stream A with zero is that operand as the value (R75). -/
theorem combine_zero {W : Nat} (a : BitVec W) : combine a 0 = ⟨a, 0, 0⟩ := by
  simp [combine]

/-- Settles O21: the operand of stream B is zero, and the bits of the operand of stream A are the a-plane bits. -/
theorem pureValueRoundTrip : Obligations.PureValueRoundTrip := by
  intro s w i f h hb
  have hW := eight_dvd_bits w
  rw [eq_combine_of_decodesTo h, groupB_of_bPlane_eq_zero hW hb, combine_zero]
  refine ⟨rfl, rfl, rfl, fun p hp => ?_⟩
  rw [groupA_getLsbD hW, decide_eq_true hp, Bool.true_and, pairAt_eq]

end Sys2Proof.Machine
end

section
/-! PROOFS. DECODE at twice the width (R83) and past the end of the vector (R77, R85). -/

namespace Sys2Proof.Machine

/-- A word of twice the width: one word above another, plane by plane. -/
def FourStateWord.append {W : Nat} (hi lo : FourStateWord W) : FourStateWord (W + W) where
  value := hi.value ++ lo.value
  highz := hi.highz ++ lo.highz
  unknown := hi.unknown ++ lo.unknown

/-- The combination is bit by bit, so it passes through an append (R75). -/
theorem combine_append {W : Nat} (ah al bh bl : BitVec W) :
    combine (ah ++ al) (bh ++ bl) = (combine ah bh).append (combine al bl) := by
  simp only [combine, FourStateWord.append, BitVec.not_append, BitVec.and_append]

/-- A word at width `2W` is two words at width `W`, past the end too (R83). -/
theorem decodeWord_double {W : Nat} (hW : 8 ∣ W) (pk : List PackedWord) (i : Nat) :
    decodeWord (W + W) pk i = (decodeWord W pk (2 * i + 1)).append (decodeWord W pk (2 * i)) := by
  simp only [decodeWord, groupA_eq, groupB_eq, groupOf_double hW, combine_append]

/-- A word wholly past the end of the vector is zero (R77). -/
theorem decodeWord_of_le {W : Nat} (hW : 8 ∣ W) {pk : List PackedWord} {i : Nat} (h : 32 * pk.length ≤ W * i) :
    decodeWord W pk i = ⟨0, 0, 0⟩ := by
  have hbyte : 4 * pk.length ≤ i * (W / 8) := by
    obtain ⟨n, rfl⟩ := hW
    rw [Nat.mul_div_cancel_left n (by decide), Nat.mul_comm i]
    rw [Nat.mul_assoc] at h
    omega
  have hA : groupA W pk i = 0 := groupOf_eq_zero hW fun a ha => readByte_streamA_of_le (hbyte.trans ha)
  have hB : groupB W pk i = 0 := groupOf_eq_zero hW fun a ha => readByte_streamB_of_le (hbyte.trans ha)
  rw [decodeWord, hA, hB, combine_zero]

/-- The words of a DECODE with zero past the last are the words of all groups. -/
theorem decodeWords_getD {W : Nat} (hW : 8 ∣ W) (hpos : 0 < W) (pk : List PackedWord) (i : Nat) :
    (decodeWords W pk).getD i ⟨0, 0, 0⟩ = decodeWord W pk i := by
  by_cases hi : i < decodeCount W pk.length
  · rw [List.getD_eq_getElem?_getD, decodeWords_getElem? hi, Option.getD_some]
  · have hend : 32 * pk.length ≤ W * i := (ceilDiv_le_iff_le_mul hpos).mp (not_lt.mp hi)
    rw [List.getD_eq_default _ _ (by simpa using hi), decodeWord_of_le hW hend]

/-- Settles O22: the words past the last are the zero words of the groups past the end. -/
theorem doubleWidthWordsConcatenate : Obligations.DoubleWidthWordsConcatenate := by
  intro W hmem pk i f hf
  have hwidths : ∀ V ∈ [8, 16, 32, 64], 8 ∣ V ∧ 0 < V := by decide
  obtain ⟨hW, hpos⟩ := hwidths W hmem
  rw [decodeWords_getD hW hpos, decodeWords_getD hW hpos, eq_decodeWord_of_getElem? hf, decodeWord_double hW]
  exact ⟨rfl, rfl, rfl⟩

/-- Settles O23: the one word is two words at width 64 (R83), the upper of them past the end. -/
theorem twoWordsAtWidth128ArePadded : Obligations.TwoWordsAtWidth128ArePadded := by
  intro s alt u v hpk
  have hlen : s.pk.length = 2 := by rw [hpk]; rfl
  have hwords : decodeWords Width.w128.bits s.pk = [decodeWord 128 s.pk 0] := by rw [decodeWords, hlen]; rfl
  have hupper : decodeWord 64 s.pk 1 = ⟨0, 0, 0⟩ := decodeWord_of_le (by decide) (by rw [hlen])
  have hdouble : decodeWord 128 s.pk 0 = FourStateWord.append ⟨0, 0, 0⟩ (decodeWord 64 s.pk 0) :=
    hupper ▸ decodeWord_double (W := 64) (by decide) s.pk 0
  refine ⟨decodeWord 128 s.pk 0, ?_, ?_⟩
  · refine (exec_instrOf .decode .w128 alt s).trans ?_
    rw [resultOf, hwords]
    rfl
  · rw [hdouble]
    exact ⟨BitVec.extractLsb'_append_eq_left, BitVec.extractLsb'_append_eq_left, BitVec.extractLsb'_append_eq_left⟩

end Sys2Proof.Machine
end

section
/-! PROOFS. RENDER_BIN (R87 to R89): the character of a position, and the text of each width. -/

namespace Sys2Proof.Machine

/-- `bin_char` follows the priority rule (R88). -/
theorem binReads_binChar (v z x : Bool) : Claims.BinReads v z x (binChar v z x) := by
  refine ⟨?_, ?_, ?_, ?_⟩
  · rintro rfl; rfl
  · rintro rfl rfl; rfl
  · rintro rfl rfl rfl; rfl
  · rintro rfl rfl rfl; rfl

/-- The binary character of a position is the glyph of its state (R88, last sentence). -/
theorem binCharAt_eq_stateGlyph {W : Nat} (f : FourStateWord W) (p : Nat) :
    f.binCharAt p = Claims.stateGlyph (f.stateAt p) := by
  rw [FourStateWord.binCharAt, FourStateWord.stateAt]
  cases f.value.getLsbD p <;> cases f.highz.getLsbD p <;> cases f.unknown.getLsbD p <;> rfl

/-- The mark of the alternate mode stands in front of the digits, two characters or none (R89, R94). -/
theorem mark_append (alt : Bool) (a b : Char) (ds : List Char) :
    (if alt then [a, b] else []) ++ ds = if alt then a :: b :: ds else ds := by
  cases alt <;> rfl

/-- The binary character of a position below `W` of the operand word is that of the operand planes' bits (R27, R88). -/
theorem operandWord_binCharAt {W p : Nat} (s : State) (hp : p < W) :
    (operandWord W s).binCharAt p = binChar (s.opv.getLsbD p) (s.opz.getLsbD p) (s.opx.getLsbD p) := by
  simp [FourStateWord.binCharAt, operandWord, hp]

/-- RENDER_BIN at any width of the set answers the text of the operand word (R87). -/
theorem rendersBin_instrOf (w : Width) (alt : Bool) : Claims.RendersBin w.bits alt (instrOf .renderBin w alt) := by
  intro s
  refine ⟨binDigits (operandWord w.bits s), ?_, length_binDigits _, fun j c hj => ?_⟩
  · rw [exec_instrOf, resultOf, renderBin_eq, mark_append]
  · have hlt : j < w.bits := by simpa using (List.getElem?_eq_some_iff.mp hj).1
    rw [binDigits_getElem? _ hlt, operandWord_binCharAt s (by omega)] at hj
    obtain rfl := Option.some.inj hj
    exact binReads_binChar _ _ _

/-- Settles O33: the five instructions are RENDER_BIN at the five widths. -/
theorem renderBinAnswersTheText : Obligations.RenderBinAnswersTheText :=
  fun alt => ⟨rendersBin_instrOf .w8 alt, rendersBin_instrOf .w16 alt, rendersBin_instrOf .w32 alt,
    rendersBin_instrOf .w64 alt, rendersBin_instrOf .w128 alt⟩

/-- The digits are the glyphs of the resolved states, the last position first (R88, R89). -/
theorem binDigits_eq_reverse_stateGlyph {W : Nat} (f : FourStateWord W) :
    binDigits f = ((resolveWord f).map Claims.stateGlyph).reverse := by
  have hglyph : f.binCharAt = Claims.stateGlyph ∘ f.stateAt := funext (binCharAt_eq_stateGlyph f)
  rw [binDigits, resolveWord, List.map_map, ← hglyph, List.map_reverse]

/-- Settles O36: both instructions complete, and each digit is the glyph of its position's state. -/
theorem binaryTextIsOfTheResolvedStates : Obligations.BinaryTextIsOfTheResolvedStates := by
  intro s w
  refine ⟨resolveWord (operandWord w.bits s), exec_instrOf .resolve w false s, ?_⟩
  rw [← binDigits_eq_reverse_stateGlyph]
  exact exec_instrOf .renderBin w false s

end Sys2Proof.Machine
end

section
/-! PROOFS. RENDER_HEX (R90 to R95): the character of a nibble's slices, what it tells of them, and the text of each width. -/

namespace Sys2Proof.Machine

/-- The glyph of a 4-bit value is its entry in the list of digits (R92). -/
theorem hexGlyphs_getElem?_toNat : ∀ vs : BitVec 4, Claims.hexGlyphs[vs.toNat]? = some (hexDigit vs) := by decide

/-- `hex_char` follows the priority rule (R91). -/
theorem hexReads_hexChar (vs zs xs : BitVec 4) : Claims.HexReads vs zs xs (hexChar vs zs xs) := by
  refine ⟨?_, ?_, ?_, ?_, ?_⟩
  · rintro rfl; rfl
  · intro hF h0; rw [hexChar, if_neg hF, if_pos h0]
  · rintro rfl rfl; rfl
  · rintro rfl hF h0; rw [hexChar, if_neg (by decide), if_neg (by decide), if_neg hF, if_pos h0]
  · rintro rfl rfl; exact hexGlyphs_getElem?_toNat vs

/-- The character of a nibble is that of its slices (R91, R93). -/
theorem hexReads_hexCharAt {W : Nat} (f : FourStateWord W) (k : Nat) :
    Claims.HexReads (nibble f.value k) (nibble f.highz k) (nibble f.unknown k) (f.hexCharAt k) :=
  hexReads_hexChar _ _ _

/-- What the character of a nibble tells of its slices (R91, R95): the five cases exclude each other and give different
characters. -/
theorem char_eq_iff_of_hexReads {vs zs xs : BitVec 4} {c : Char} (h : Claims.HexReads vs zs xs c) :
    (c = 'z' ↔ zs = 0xF#4) ∧ (c = 'Z' ↔ (zs ≠ 0#4 ∧ zs ≠ 0xF#4)) ∧ (c = 'x' ↔ (zs = 0#4 ∧ xs = 0xF#4)) ∧
      (c = 'X' ↔ (zs = 0#4 ∧ xs ≠ 0#4 ∧ xs ≠ 0xF#4)) ∧ (c ∈ Claims.hexGlyphs ↔ (zs = 0#4 ∧ xs = 0#4)) := by
  obtain ⟨hz, hZ, hx, hX, hdigit⟩ := h
  by_cases hzF : zs = 0xF#4
  · obtain rfl := hz hzF
    simp [hzF, Claims.hexGlyphs]
  by_cases hz0 : zs = 0#4
  · by_cases hxF : xs = 0xF#4
    · obtain rfl := hx hz0 hxF
      simp [hz0, hxF, Claims.hexGlyphs]
    by_cases hx0 : xs = 0#4
    · have hmem : c ∈ Claims.hexGlyphs := List.mem_of_getElem? (hdigit hz0 hx0)
      have hne (d : Char) (hd : d ∉ Claims.hexGlyphs) : c ≠ d := ne_of_mem_of_not_mem hmem hd
      simp [hz0, hx0, hmem, hne 'z' (by decide), hne 'Z' (by decide), hne 'x' (by decide), hne 'X' (by decide)]
    · obtain rfl := hX hz0 hxF hx0
      simp [hz0, hxF, hx0, Claims.hexGlyphs]
  · obtain rfl := hZ hzF hz0
    simp [hzF, hz0, Claims.hexGlyphs]

/-- Settles O35: the character tells the case of the slices, and a Z-slice that is not zero is in one of the first two. -/
theorem hexCaseTellsWholeFromPartial : Obligations.HexCaseTellsWholeFromPartial := by
  intro vs zs xs
  obtain ⟨hz, hZ, hx, hX, -⟩ := char_eq_iff_of_hexReads (hexReads_hexChar vs zs xs)
  refine ⟨fun h0 => ?_, hz, hZ, hx, hX⟩
  rw [hz, hZ]
  exact (eq_or_ne zs 0xF#4).imp_right fun hF => ⟨h0, hF⟩

/-- The slices of a whole nibble are not changed by cutting the plane to the width (R27, R93). -/
theorem nibble_setWidth {W n k : Nat} (plane : BitVec n) (hk : k < W / 4) :
    nibble (plane.setWidth W) k = plane.extractLsb' (4 * k) 4 := by
  refine BitVec.eq_of_getLsbD_eq fun j hj => ?_
  have hlt : 4 * k + j < W := by omega
  simp [nibble, hlt]

/-- RENDER_HEX at any width of the set answers the text of the operand word (R90). -/
theorem rendersHex_instrOf (w : Width) (alt : Bool) : Claims.RendersHex w.bits alt (instrOf .renderHex w alt) := by
  intro s
  refine ⟨hexDigits (operandWord w.bits s), ?_, length_hexDigits _, fun j c hj => ?_⟩
  · rw [exec_instrOf, resultOf, renderHex_eq, mark_append]
  · have hlt : j < w.bits / 4 := by simpa using (List.getElem?_eq_some_iff.mp hj).1
    have hk : w.bits / 4 - 1 - j < w.bits / 4 := by omega
    rw [hexDigits_getElem? _ hlt] at hj
    obtain rfl := Option.some.inj hj
    rw [← nibble_setWidth s.opv hk, ← nibble_setWidth s.opz hk, ← nibble_setWidth s.opx hk]
    exact hexReads_hexCharAt (operandWord w.bits s) _

/-- Settles O34: the five instructions are RENDER_HEX at the five widths. -/
theorem renderHexAnswersTheText : Obligations.RenderHexAnswersTheText :=
  fun alt => ⟨rendersHex_instrOf .w8 alt, rendersHex_instrOf .w16 alt, rendersHex_instrOf .w32 alt,
    rendersHex_instrOf .w64 alt, rendersHex_instrOf .w128 alt⟩

end Sys2Proof.Machine
end

section
/-! PROOFS. The slices of a nibble and its resolved states (R68, R93): the slices of the four masks of R72 hold what the counts
of R97 count. -/

namespace Sys2Proof.Machine

/-- A slice is all ones or zero as all or none of its bits are set. -/
theorem ofBoolListLE_four_iff : ∀ a b c d : Bool,
    (BitVec.ofBoolListLE [a, b, c, d] = 0xF#4 ↔ [a, b, c, d].count true = 4) ∧
    (BitVec.ofBoolListLE [a, b, c, d] = 0#4 ↔ [a, b, c, d].count true = 0) := by decide

/-- The slice of a state's mask says of each position of the nibble whether it is in that state (R72, R93). -/
theorem nibble_maskOf {W k : Nat} (f : FourStateWord W) (hk : k < W / 4) (st : State4) :
    nibble (f.maskOf st) k = BitVec.ofBoolListLE
      [f.stateAt (4 * k) == st, f.stateAt (4 * k + 1) == st, f.stateAt (4 * k + 2) == st, f.stateAt (4 * k + 3) == st] := by
  have hbit (p : Nat) (hp : p < W) : (f.maskOf st).getLsbD p = (f.stateAt p == st) := by
    rw [Bool.eq_iff_iff, maskOf_getLsbD_iff f hp, beq_iff_eq]
  rw [nibble_eq_bits, hbit (4 * k) (by omega), hbit (4 * k + 1) (by omega), hbit (4 * k + 2) (by omega),
    hbit (4 * k + 3) (by omega)]

/-- How many positions of a nibble are in a state, by whether each is. -/
theorem countIn_eq_count_true {W : Nat} (f : FourStateWord W) (k : Nat) (st : State4) :
    Claims.countIn f k st = [f.stateAt (4 * k) == st, f.stateAt (4 * k + 1) == st, f.stateAt (4 * k + 2) == st,
      f.stateAt (4 * k + 3) == st].count true := by
  simp [Claims.countIn, List.count_cons]

/-- The slice of a state's mask is all ones exactly when the whole nibble is in that state. -/
theorem nibble_maskOf_eq_ones_iff {W k : Nat} (f : FourStateWord W) (hk : k < W / 4) (st : State4) :
    nibble (f.maskOf st) k = 0xF#4 ↔ Claims.countIn f k st = 4 := by
  rw [nibble_maskOf f hk, countIn_eq_count_true]
  exact (ofBoolListLE_four_iff _ _ _ _).1

/-- The slice of a state's mask is zero exactly when no position of the nibble is in that state. -/
theorem nibble_maskOf_eq_zero_iff {W k : Nat} (f : FourStateWord W) (hk : k < W / 4) (st : State4) :
    nibble (f.maskOf st) k = 0#4 ↔ Claims.countIn f k st = 0 := by
  rw [nibble_maskOf f hk, countIn_eq_count_true]
  exact (ofBoolListLE_four_iff _ _ _ _).2

/-- A slice passes through the mask of the bits of one plane that another has not. -/
theorem nibble_and_not {W k : Nat} (a b : BitVec W) (hk : k < W / 4) :
    nibble (a &&& ~~~b) k = nibble a k &&& ~~~nibble b k := by
  refine BitVec.eq_of_getLsbD_eq fun j hj => ?_
  have hlt : 4 * k + j < W := by omega
  simp [nibble, hj, hlt]

/-- Without Z in the nibble, the X-slice is that of the positions in state X (R72). -/
theorem nibble_unknown_eq_nibble_maskOf {W k : Nat} (f : FourStateWord W) (hk : k < W / 4) (hz : nibble f.highz k = 0#4) :
    nibble f.unknown k = nibble (f.maskOf .x) k := by
  rw [FourStateWord.maskOf, FourStateWord.isX, nibble_and_not _ _ hk, hz, BitVec.not_zero, BitVec.and_allOnes]

/-- Without Z and X in the nibble, the V-slice is that of the positions in state 1 (R72). -/
theorem nibble_value_eq_nibble_maskOf {W k : Nat} (f : FourStateWord W) (hk : k < W / 4) (hz : nibble f.highz k = 0#4)
    (hx : nibble f.unknown k = 0#4) : nibble f.value k = nibble (f.maskOf .one) k := by
  rw [FourStateWord.maskOf, FourStateWord.is1, nibble_and_not _ _ hk, nibble_and_not _ _ hk, hz, hx, BitVec.not_zero,
    BitVec.and_allOnes, BitVec.and_allOnes]

/-- The slice of a state's mask as a number: position `4k` least significant (R93). -/
theorem nibble_maskOf_toNat {W k : Nat} (f : FourStateWord W) (hk : k < W / 4) (st : State4) :
    (nibble (f.maskOf st) k).toNat = (if f.stateAt (4 * k) = st then 1 else 0) +
      (if f.stateAt (4 * k + 1) = st then 2 else 0) + (if f.stateAt (4 * k + 2) = st then 4 else 0) +
      (if f.stateAt (4 * k + 3) = st then 8 else 0) := by
  have hsum : ∀ a b c d : Bool, (BitVec.ofBoolListLE [a, b, c, d]).toNat =
      (if a then 1 else 0) + (if b then 2 else 0) + (if c then 4 else 0) + (if d then 8 else 0) := by decide
  rw [nibble_maskOf f hk, hsum]
  simp only [beq_iff_eq]

/-- The slices of a nibble, by its resolved states: the Z-slice, and without Z the X-slice, are all ones or zero as all or none
of the positions are Z, or X. -/
theorem slices_iff_countIn {W k : Nat} (f : FourStateWord W) (hk : k < W / 4) :
    (nibble f.highz k = 0xF#4 ↔ Claims.countIn f k .z = 4) ∧ (nibble f.highz k = 0#4 ↔ Claims.countIn f k .z = 0) ∧
    (Claims.countIn f k .z = 0 → (nibble f.unknown k = 0xF#4 ↔ Claims.countIn f k .x = 4)) ∧
    (Claims.countIn f k .z = 0 → (nibble f.unknown k = 0#4 ↔ Claims.countIn f k .x = 0)) := by
  have hz0 : nibble f.highz k = 0#4 ↔ Claims.countIn f k .z = 0 := nibble_maskOf_eq_zero_iff f hk .z
  refine ⟨nibble_maskOf_eq_ones_iff f hk .z, hz0, fun h => ?_, fun h => ?_⟩
  · rw [nibble_unknown_eq_nibble_maskOf f hk (hz0.mpr h), nibble_maskOf_eq_ones_iff f hk]
  · rw [nibble_unknown_eq_nibble_maskOf f hk (hz0.mpr h), nibble_maskOf_eq_zero_iff f hk]

/-- What the hexadecimal character of a nibble tells of its resolved states (R97). -/
theorem hexCharAt_iff {W k : Nat} (f : FourStateWord W) (hk : k < W / 4) :
    (f.hexCharAt k = 'z' ↔ Claims.countIn f k .z = 4) ∧
    (f.hexCharAt k = 'Z' ↔ (Claims.countIn f k .z ≠ 0 ∧ Claims.countIn f k .z ≠ 4)) ∧
    (f.hexCharAt k = 'x' ↔ (Claims.countIn f k .z = 0 ∧ Claims.countIn f k .x = 4)) ∧
    (f.hexCharAt k = 'X' ↔ (Claims.countIn f k .z = 0 ∧ Claims.countIn f k .x ≠ 0 ∧ Claims.countIn f k .x ≠ 4)) ∧
    (f.hexCharAt k ∈ Claims.hexGlyphs ↔ (Claims.countIn f k .z = 0 ∧ Claims.countIn f k .x = 0)) := by
  obtain ⟨hz, hZ, hx, hX, hdigit⟩ := char_eq_iff_of_hexReads (hexReads_hexCharAt f k)
  obtain ⟨hzF, hz0, hxF, hx0⟩ := slices_iff_countIn f hk
  rw [hz, hZ, hx, hX, hdigit, hzF, hz0]
  exact ⟨Iff.rfl, and_congr hz0.not hzF.not, and_congr_right hxF,
    and_congr_right fun h => and_congr (hx0 h).not (hxF h).not, and_congr_right hx0⟩

/-- Without Z and X, the digit of a nibble is that of its positions in state 1, read as a binary number (R97). -/
theorem hexGlyphs_getElem?_of_no_z_no_x {W k : Nat} (f : FourStateWord W) (hk : k < W / 4)
    (hz : Claims.countIn f k .z = 0) (hx : Claims.countIn f k .x = 0) :
    Claims.hexGlyphs[(nibble (f.maskOf .one) k).toNat]? = some (f.hexCharAt k) := by
  obtain ⟨-, hz0, -, hx0⟩ := slices_iff_countIn f hk
  obtain ⟨-, -, -, -, hdigit⟩ := hexReads_hexCharAt f k
  rw [← nibble_value_eq_nibble_maskOf f hk (hz0.mpr hz) ((hx0 hz).mpr hx)]
  exact hdigit (hz0.mpr hz) ((hx0 hz).mpr hx)

/-- Settles O37: the counts are those of the slices, and the digit is read from the slice of the positions in state 1. -/
theorem hexCharacterIsOfTheStates : Obligations.HexCharacterIsOfTheStates := by
  intro W f k hk
  obtain ⟨hz, hZ, hx, hX, -⟩ := hexCharAt_iff f hk
  refine ⟨hz.mpr, fun h h4 => hZ.mpr (by omega), fun h h4 => hx.mpr ⟨h, h4⟩, fun h h0 h4 => hX.mpr (by omega),
    fun hz0 hx0 => ?_⟩
  rw [← nibble_maskOf_toNat f hk .one]
  exact hexGlyphs_getElem?_of_no_z_no_x f hk hz0 hx0

end Sys2Proof.Machine
end

section
/-! PROOFS. The binary and the hexadecimal text of one word (R98): both are read off its states, the binary characters of a
nibble being the glyphs of the states that R97 counts. -/

namespace Sys2Proof.Machine

/-- A nibble has four positions, each in one state. -/
theorem countIn_sum {W : Nat} (f : FourStateWord W) (k : Nat) :
    Claims.countIn f k .z + Claims.countIn f k .x + Claims.countIn f k .zero + Claims.countIn f k .one = 4 := by
  have hone (st : State4) (ss : List State4) : (st :: ss).count .z + (st :: ss).count .x + (st :: ss).count .zero +
      (st :: ss).count .one = 1 + (ss.count .z + ss.count .x + ss.count .zero + ss.count .one) := by
    cases st <;> simp <;> omega
  simp only [Claims.countIn, hone, List.count_nil]

/-- Different states have different glyphs. -/
theorem stateGlyph_injective : Function.Injective Claims.stateGlyph := by
  intro st st' h
  cases st <;> cases st' <;> revert h <;> decide

/-- A binary character is `1` exactly where the state is 1. -/
theorem binCharAt_eq_one_iff {W : Nat} (f : FourStateWord W) (p : Nat) : f.binCharAt p = '1' ↔ f.stateAt p = .one := by
  rw [binCharAt_eq_stateGlyph]
  exact stateGlyph_injective.eq_iff (b := .one)

/-- The binary characters of a nibble are in number what the states are. -/
theorem count_binCharAt {W : Nat} (f : FourStateWord W) (k : Nat) (st : State4) :
    [f.binCharAt (4 * k), f.binCharAt (4 * k + 1), f.binCharAt (4 * k + 2), f.binCharAt (4 * k + 3)].count
      (Claims.stateGlyph st) = Claims.countIn f k st := by
  simp only [binCharAt_eq_stateGlyph]
  exact List.count_map_of_injective [_, _, _, _] _ stateGlyph_injective st

/-- Digit `W - 1 - p` of the binary text is that of position `p` (R89). -/
theorem binDigits_getElem?_position {W p : Nat} (f : FourStateWord W) (hp : p < W) :
    (binDigits f)[W - 1 - p]? = some (f.binCharAt p) := by
  have hpos : W - 1 - (W - 1 - p) = p := by omega
  rw [binDigits_getElem? f (by omega), hpos]

/-- Digit `W / 4 - 1 - k` of the hexadecimal text is that of nibble `k` (R94). -/
theorem hexDigits_getElem?_nibble {W k : Nat} (f : FourStateWord W) (hk : k < W / 4) :
    (hexDigits f)[W / 4 - 1 - k]? = some (f.hexCharAt k) := by
  have hpos : W / 4 - 1 - (W / 4 - 1 - k) = k := by omega
  rw [hexDigits_getElem? f (by omega), hpos]

/-- Settles O38: both texts are of the states, so the counts of binary characters are those of R97. -/
theorem binaryAndHexTextsAgree : Obligations.BinaryAndHexTextsAgree := by
  intro s w k hk
  let f := operandWord w.bits s
  refine ⟨binDigits f, hexDigits f, f.binCharAt (4 * k), f.binCharAt (4 * k + 1), f.binCharAt (4 * k + 2),
    f.binCharAt (4 * k + 3), f.hexCharAt k, exec_instrOf .renderBin w false s, exec_instrOf .renderHex w false s,
    binDigits_getElem?_position f (by omega), binDigits_getElem?_position f (by omega),
    binDigits_getElem?_position f (by omega), binDigits_getElem?_position f (by omega), hexDigits_getElem?_nibble f hk, ?_⟩
  have hcz := count_binCharAt f k .z
  have hcx := count_binCharAt f k .x
  have hc0 := count_binCharAt f k .zero
  have hc1 := count_binCharAt f k .one
  have hsum := countIn_sum f k
  obtain ⟨hz, hZ, hx, hX, hdigit⟩ := hexCharAt_iff f hk
  simp only [Claims.stateGlyph] at hcz hcx hc0 hc1
  simp only [hcz, hcx, hc0, hc1, binCharAt_eq_one_iff, ← nibble_maskOf_toNat f hk]
  rw [hz, hZ, hx, hX, hdigit]
  refine ⟨Iff.rfl, by omega, Iff.rfl, by omega, by omega, fun h => ?_⟩
  exact hexGlyphs_getElem?_of_no_z_no_x f hk (by omega) (by omega)

end Sys2Proof.Machine
end

section
/-! PROOFS. The text of decoded bits (R99): a pair sets one plane's bit, which is in the slice of its nibble. -/

namespace Sys2Proof.Machine

/-- A bit set in a plane is set in the slice of its nibble (R93). -/
theorem nibble_ne_zero_of_getLsbD {W p : Nat} {plane : BitVec W} (h : plane.getLsbD p = true) : nibble plane (p / 4) ≠ 0#4 := by
  intro h0
  have hbit := nibble_getLsbD plane (p / 4) (p % 4)
  rw [h0, Nat.div_add_mod, h, decide_eq_true (Nat.mod_lt p (by decide))] at hbit
  simp at hbit

/-- The Z-slice of a nibble without a position in state Z is zero. -/
theorem nibble_highz_eq_zero {W k : Nat} {f : FourStateWord W} (h : ∀ j, j < 4 → f.stateAt (4 * k + j) ≠ .z) :
    nibble f.highz k = 0#4 := by
  refine BitVec.eq_of_getLsbD_eq fun j hj => ?_
  obtain ⟨hz, -, -, -⟩ := resolveBit_eq_iff (f.value.getLsbD (4 * k + j)) (f.highz.getLsbD (4 * k + j))
    (f.unknown.getLsbD (4 * k + j))
  have hbit : f.highz.getLsbD (4 * k + j) = false := Bool.eq_false_iff.mpr (mt hz.mp (h j hj))
  rw [nibble_getLsbD, hbit, Bool.and_false, BitVec.getLsbD_zero]

/-- Settles O39: the pair sets one plane's bit, and that bit is in the slice of its nibble. -/
theorem decodedBitsRender : Obligations.DecodedBitsRender := by
  intro s w i f h p hp
  obtain ⟨-, hplanes⟩ := decodedAs_decodeWords w s.pk
  obtain ⟨-, hz, hx⟩ := hplanes i f (getElem?_decodeWords_of_decodesTo h) p hp
  obtain ⟨hbinZ, hbinX, -, -⟩ := binReads_binChar (f.value.getLsbD p) (f.highz.getLsbD p) (f.unknown.getLsbD p)
  obtain ⟨hexz, hexZ, hexx, hexX, -⟩ := hexReads_hexCharAt f (p / 4)
  refine ⟨fun hpair => ?_, fun hpair => ?_⟩ <;> rw [hpair] at hz hx
  · exact ⟨hbinZ hz, (eq_or_ne _ _).imp hexz fun hne => hexZ hne (nibble_ne_zero_of_getLsbD hz)⟩
  · refine ⟨hbinX hz hx, fun hnoZ => ?_⟩
    have hslice := nibble_highz_eq_zero hnoZ
    exact (eq_or_ne _ _).imp (hexx hslice) fun hne => hexX hslice hne (nibble_ne_zero_of_getLsbD hx)

end Sys2Proof.Machine
end

section
/-! PROOFS. The configuration error of a step (R103 to R108): a reserved `wsel` raises it, it stands on the ports alone, and it
leaves nothing behind; a width's code gives the result of the operation. -/

namespace Sys2Proof.Machine

/-- A `wsel` of 5 or more ends a step in the fault that carries it (R104). -/
theorem stepOutcome_of_reserved {s : State} (h : 5 ≤ (wselField s.sel).toNat) :
    stepOutcome s = .unsupportedWidth (wselField s.sel) :=
  stepOutcome_eq_unsupportedWidth_iff.mpr ⟨rfl, h⟩

/-- A `wsel` that names a width ends a step in the result of the selector's operation (R105). -/
theorem stepOutcome_of_widthOfCode {s : State} {w : Width} (h : widthOfCode (wselField s.sel) = some w) :
    stepOutcome s = .ok (resultOf (opOfCode (opField s.sel)) w (altField s.sel) s) :=
  stepOutcome_of_decodeSel (decodeSel_of_widthOfCode h)

/-- The codes below 5 are those of the widths (R59). -/
theorem exists_widthOfCode_of_lt {c : BitVec 3} (h : c.toNat < 5) : ∃ w, widthOfCode c = some w :=
  Option.ne_none_iff_exists'.mp fun hnone => Nat.not_le.mpr h (widthOfCode_eq_none_iff.mp hnone)

/-- Settles O15: also the fault is an outcome in a next state. -/
theorem everyStepAnswersANextState : Obligations.EveryStepAnswersANextState :=
  fun s => ⟨_, step_eq s⟩

/-- Settles O7: the width check is on `wsel` alone. -/
theorem unsupportedWidthIsRaised : Obligations.UnsupportedWidthIsRaised := by
  intro s h
  rw [step_eq, stepOutcome_of_reserved h, State.withOutcome]

/-- Settles O8: the ports are those of the outcome, which is the fault with `wsel` or a success. -/
theorem errorPortsTellTheFault : Obligations.ErrorPortsTellTheFault := by
  intro s t h
  obtain rfl := step_eq_next_iff.mp h
  rw [State.withOutcome_ports, State.ports_eq, State.withOutcome_outcome]
  refine ⟨fun hw => ?_, fun hw => ?_⟩
  · rw [stepOutcome_of_reserved hw]
    exact ⟨s.sameInputs_withOutcome _, rfl, rfl, rfl, rfl, rfl, rfl, rfl, fun _ => ⟨rfl, rfl, rfl, rfl⟩⟩
  · obtain ⟨w, hw⟩ := exists_widthOfCode_of_lt hw
    rw [stepOutcome_of_widthOfCode hw]
    exact ⟨ofOutcome_ok_err _, ofOutcome_ok_cause _, ofOutcome_ok_cinfo _⟩

/-- A binary text is a digit for each position, and two characters more in the alternate mode (R89). -/
theorem length_renderBin {W : Nat} (alt : Bool) (f : FourStateWord W) :
    (renderBin alt f).length = W + (if alt then 2 else 0) := by
  rw [renderBin_eq, List.length_append, length_binDigits, Nat.add_comm]
  cases alt <;> rfl

/-- A hexadecimal text is a digit for each nibble, and two characters more in the alternate mode (R94). -/
theorem length_renderHex {W : Nat} (alt : Bool) (f : FourStateWord W) :
    (renderHex alt f).length = W / 4 + (if alt then 2 else 0) := by
  rw [renderHex_eq, List.length_append, length_hexDigits, Nat.add_comm]
  cases alt <;> rfl

/-- Settles O10: the result is that of the operation `op` names, whose form and length do not depend on the operands' data. -/
theorem supportedWidthsSucceed : Obligations.SupportedWidthsSucceed := by
  intro s w hw
  refine ⟨resultOf (opOfCode (opField s.sel)) w (altField s.sel) s, ?_, ?_, ?_, ?_, ?_⟩
  · rw [step_eq, stepOutcome_of_widthOfCode (widthOfCode_eq_some_iff.mpr hw), State.withOutcome]
  all_goals
    intro hop
    rw [hop]
  · exact ⟨decodeWords w.bits s.pk, rfl, length_decodeWords w.bits s.pk⟩
  · exact ⟨resolveWord (operandWord w.bits s), rfl, length_resolveWord _⟩
  · exact ⟨renderBin (altField s.sel) (operandWord w.bits s), rfl, length_renderBin _ _⟩
  · exact ⟨renderHex (altField s.sel) (operandWord w.bits s), rfl, length_renderHex _ _⟩

/-- A request presents all inputs, so nothing of a request before it is left (R17). -/
theorem perform_of_perform {r q : Request} {s t : State} (h : perform r s = .next t) : perform q t = perform q s := by
  obtain rfl := step_eq_next_iff.mp h
  rw [perform_eq_outcome, perform_eq_outcome, State.withOutcome_present, State.present_present,
    State.withOutcome_withOutcome]

/-- Settles O9: no request before, one that faulted included, is seen by the next. -/
theorem faultIsNotSticky : Obligations.FaultIsNotSticky :=
  fun _ _ _ _ _ h => perform_of_perform h

end Sys2Proof.Machine
end

section
/-! PROOFS. The fault a sequence or a program keeps (R108, D10): the first of its outcomes that is one, whatever comes after. -/

namespace Sys2Proof.Machine

/-- A selector is unsupported exactly when its `wsel` is 101, 110 or 111 (R61). -/
theorem supportedSelector_eq_false_iff {sel : BitVec 6} : supportedSelector sel = false ↔ 5 ≤ (wselField sel).toNat := by
  rw [← widthOfCode_eq_none_iff, supportedSelector, Option.isSome_eq_false_iff, Option.isNone_iff_eq_none]

/-- A request with an unsupported width ends in the fault with its `wsel` (R104). -/
theorem Request.outcome_of_unsupported {r : Request} (h : supportedSelector r.sel = false) :
    r.outcome = .unsupportedWidth (wselField r.sel) :=
  stepOutcome_of_reserved (s := State.reset.present r) (supportedSelector_eq_false_iff.mp h)

/-- A request whose selector names a width succeeds (R105). -/
theorem Request.outcome_of_supported {r : Request} (h : supportedSelector r.sel = true) : ∃ res, r.outcome = .ok res := by
  obtain ⟨w, hw⟩ := Option.isSome_iff_exists.mp h
  exact ⟨_, stepOutcome_of_widthOfCode (s := State.reset.present r) hw⟩

/-- The first fault of two runs of outcomes is that of the first run, if it has one. -/
theorem firstFault_append (os ps : List OpOutcome) : firstFault (os ++ ps) = (firstFault os).or (firstFault ps) := by
  induction os with
  | nil => rfl
  | cons o os ih =>
    cases o with
    | ok r => exact ih
    | unsupportedWidth wsel => rfl

/-- A safe sequence meets no fault. -/
theorem firstFault_of_safeSequence {rs : List Request} (h : safeSequence rs) :
    firstFault (rs.map Request.outcome) = none := by
  induction rs with
  | nil => rfl
  | cons r rs ih =>
    obtain ⟨hr, hrs⟩ := List.forall_mem_cons.mp h
    obtain ⟨res, hres⟩ := Request.outcome_of_supported hr
    rw [List.map_cons, hres, firstFault]
    exact ih hrs

/-- A sequence ends as the outcomes of its requests say. -/
theorem runRequests_eq (rs : List Request) (s : State) :
    ∃ t, runRequests rs s = sequenceEnd (rs.map Request.outcome) t := by
  obtain ⟨t, ht⟩ := performAll_outcomes rs s
  exact ⟨t, by rw [runRequests, ht]⟩

/-- Outcomes without a fault end in the next state. -/
theorem sequenceEnd_of_none {os : List OpOutcome} (h : firstFault os = none) (s : State) :
    sequenceEnd os s = .next s := by
  rw [sequenceEnd, h]

/-- Outcomes with a fault end in the first one. -/
theorem sequenceEnd_of_some {os : List OpOutcome} {wsel : BitVec 3} (h : firstFault os = some wsel) (s : State) :
    sequenceEnd os s = .fault (.unsupportedWidth wsel) := by
  rw [sequenceEnd, h]

/-- Settles O50: the outcomes before the unsupported request hold no fault, and its own is the fault with its `wsel`. -/
theorem sequenceKeepsItsFault : Obligations.SequenceKeepsItsFault := by
  refine ⟨fun rs s hsafe => ?_, fun rs r qs s hsafe hr => ?_⟩
  · obtain ⟨t, ht⟩ := runRequests_eq rs s
    exact ⟨t, ht.trans (sequenceEnd_of_none (firstFault_of_safeSequence hsafe) t)⟩
  · obtain ⟨t, ht⟩ := runRequests_eq (rs ++ r :: qs) s
    refine ht.trans (sequenceEnd_of_some ?_ t)
    rw [List.map_append, List.map_cons, firstFault_append, firstFault_of_safeSequence hsafe,
      Request.outcome_of_unsupported hr]
    rfl

/-- The fault that the lines performed so far have met, the first: their results stand in `env` the latest first. -/
def faultSoFar (env : Results) : Option (BitVec 3) := firstFault (env.map (·.2)).reverse

theorem faultSoFar_nil : faultSoFar [] = none := rfl

/-- A further result counts only where no fault was met before it. -/
theorem faultSoFar_cons (name : String) (o : OpOutcome) (env : Results) :
    faultSoFar ((name, o) :: env) = (faultSoFar env).or (firstFault [o]) := by
  rw [faultSoFar, List.map_cons, List.reverse_cons, firstFault_append, faultSoFar]

/-- How a program ends, given how its lines did. -/
def programEnd : Host.Outcome (Results × State) Fault Refusal → Host.Outcome State Fault Refusal
  | .next (env, t) => sequenceEnd (env.map (·.2)).reverse t
  | .fault f => .fault f
  | .refused q => .refused q

theorem runProgram_eq (ls : List Line) (s : State) : runProgram ls s = programEnd (performLines ls [] s) := rfl

/-- The request of a line has the line's selector. -/
theorem Line.request_sel {l : Line} {env : Results} {r : Request} (h : l.request env = some r) : r.sel = l.sel := by
  rw [Line.request] at h
  split at h
  next => cases h; rfl
  next => cases h; rfl
  next =>
    obtain ⟨f, -, rfl⟩ := Option.map_eq_some_iff.mp h
    rfl

/-- A line that presents a request is performed, and its result is put before the others. -/
theorem performLines_cons_of_request {l : Line} {env : Results} {r : Request} (h : l.request env = some r)
    (ls : List Line) (s : State) :
    performLines (l :: ls) env s =
      performLines ls ((l.dst, r.outcome) :: env) ((s.present r).withOutcome r.outcome) := by
  simp only [performLines, h, perform_eq_outcome, State.withOutcome_outcome]

/-- A program that has met a fault ends in it, whatever lines follow: a line that presents no request ends the run in that
fault too. -/
theorem programEnd_of_faultSoFar {env : Results} {wsel : BitVec 3} (h : faultSoFar env = some wsel) (ls : List Line)
    (s : State) : programEnd (performLines ls env s) = .fault (.unsupportedWidth wsel) := by
  induction ls generalizing env s with
  | nil => exact sequenceEnd_of_some h s
  | cons l ls ih =>
    cases hr : l.request env with
    | none =>
      have hend : l.unresolved env = .fault (.unsupportedWidth wsel) := by
        rw [faultSoFar] at h
        rw [Line.unresolved, h]
      rw [performLines, hr]
      exact congrArg programEnd hend
    | some r =>
      rw [performLines_cons_of_request hr]
      refine ih ?_ _
      rw [faultSoFar_cons, h, Option.some_or]

/-- A program that has met no fault, whose lines make sense up to one with an unsupported width, ends in that line's fault. -/
theorem programEnd_of_unsupported {ctx : Shapes} {env : Results} {ls : List Line} {l : Line} (hfit : ResultsFit ctx env)
    (hnone : faultSoFar env = none) (hwf : programWf ctx (ls ++ [l]) = true)
    (hls : ∀ k ∈ ls, supportedSelector k.sel = true) (hl : supportedSelector l.sel = false) (qs : List Line) (s : State) :
    programEnd (performLines (ls ++ l :: qs) env s) = .fault (.unsupportedWidth (wselField l.sel)) := by
  induction ls generalizing ctx env s with
  | nil =>
    obtain ⟨hwfl, -⟩ := Bool.and_eq_true_iff.mp hwf
    obtain ⟨r, hr⟩ := request_of_lineWf hfit hwfl
    rw [← Line.request_sel hr] at hl ⊢
    rw [List.nil_append, performLines_cons_of_request hr]
    refine programEnd_of_faultSoFar ?_ qs _
    rw [faultSoFar_cons, hnone, Request.outcome_of_unsupported hl]
    rfl
  | cons k ls ih =>
    obtain ⟨hwfk, hwfls⟩ := Bool.and_eq_true_iff.mp hwf
    obtain ⟨hk, hls⟩ := List.forall_mem_cons.mp hls
    obtain ⟨r, hr⟩ := request_of_lineWf hfit hwfk
    rw [← Line.request_sel hr] at hk
    obtain ⟨res, hres⟩ := Request.outcome_of_supported hk
    rw [List.cons_append, performLines_cons_of_request hr]
    refine ih (hfit.cons hr) ?_ hwfls hls _
    rw [faultSoFar_cons, hnone, hres]
    rfl

/-- Settles O53: before the first line no fault was met. -/
theorem programKeepsItsFault : Obligations.ProgramKeepsItsFault :=
  fun _ _ qs s hwf hls hl => programEnd_of_unsupported resultsFit_nil faultSoFar_nil hwf hls hl qs s

end Sys2Proof.Machine
end

section
/-! PROOFS. The outputs and the present inputs (R17, R116, R117): a presented request fixes its outcome and the output ports,
whatever the state held before. -/

namespace Sys2Proof.Machine

/-- A request performed leaves its own outcome in the state (R17). -/
theorem outcome_of_perform {r : Request} {s t : State} (h : perform r s = .next t) : t.outcome = r.outcome := by
  rw [perform_eq_outcome, Host.Outcome.next.injEq] at h
  rw [← h, State.withOutcome_outcome]

/-- Settles O48: after either run the state holds the request's own outcome. -/
theorem firstOperationIsLikeAnyOther : Obligations.FirstOperationIsLikeAnyOther :=
  fun _ _ _ _ hfirst hlater => (outcome_of_perform hfirst).trans (outcome_of_perform hlater).symm

/-- Once a request is presented, the output ports show its outcome (R117). -/
@[simp] theorem State.present_ports (s : State) (r : Request) : (s.present r).ports = OutPorts.ofOutcome r.outcome :=
  State.ports_eq _

/-- A selector presented over a replaced outcome is the selector presented, with that outcome. -/
@[simp] theorem State.withOutcome_withFetchWord (s : State) (o : OpOutcome) (nbits n : Nat) :
    (s.withOutcome o).withFetchWord nbits n = (s.withFetchWord nbits n).withOutcome o := rfl

/-- The output ports are disciplined in every state, as the outcome of a step is (R27). -/
theorem State.ports_disciplined (s : State) : s.ports.Disciplined := by
  rw [State.ports_eq]
  exact stepOutcome_disciplined s

/-- Settles O52: the output ports are those of the outcome a step would end with, which reads the inputs alone. -/
theorem outputsFollowThePresentInputs : Obligations.OutputsFollowThePresentInputs := by
  refine ⟨fun s t h => ?_, fun s t r => ?_, fun s r t h => ?_, fun s o nbits n => ?_, State.ports_disciplined⟩
  · obtain rfl := step_eq_next_iff.mp h
    exact ⟨State.ports_eq s, State.withOutcome_ports s _⟩
  · rw [State.present_ports, State.present_ports]
  · rw [State.present_ports, outcome_of_perform h]
  · change ((s.withOutcome o).withFetchWord nbits n).ports = _
    rw [State.withOutcome_withFetchWord, State.withOutcome_ports]

end Sys2Proof.Machine
end
